-- ==== Sys2Proof/Word.lean ====
section
/-! DEFINITION. The words, pulse symbols and destination memory of the WS2812 frame encoder
(spec/00_scope.md R9, R11; spec/10_state.md R31; spec/20_memory.md R50). -/

namespace Sys2Proof

/-- One byte of DATA: `BITS_PER_BYTE` is 8 (R9, R50). -/
abbrev Byte := BitVec 8

/-- The command word (R71), and every 32-bit operand of CREATE (R76). -/
abbrev Word := BitVec 32

/-- A tick count: `TICK_BITS` is 32 (R9, R22, R31). -/
abbrev Tick := BitVec 32

/-- The level of one half of a pulse symbol: bit value 0 means low and 1 means high (R31). -/
inductive Level where
  | low
  | high
  deriving DecidableEq, Repr

/-- A PulseSymbol: a first half at `levelHigh` for `durationHigh` ticks, then a second half at
`levelLow` for `durationLow` ticks; the two levels are independent (R31, 90_conflicts.md C1). -/
structure PulseSymbol where
  levelHigh : Level
  durationHigh : Tick
  levelLow : Level
  durationLow : Tick
  deriving DecidableEq, Repr

/-- A destination space DEST: the positions whose symbol the model knows, each with its symbol, in
strictly rising order (`Memory.wf`). A position that is not listed holds whatever the caller left
there, which the model gives no value (R50, R53, R54; log entry 8). -/
abbrev Memory := List (Nat × PulseSymbol)

end Sys2Proof
end

