-- ==== Sys2Proof/Config.lean ====
section
/-! DEFINITION. The implementation parameters of spec/00_scope.md R9 and R10: the width `W` and the
five words of the timing-table ROM. The other parameters of R9 have one value each and stand in the
types (`Tick`, `Word`, `Byte`); `alloc_ok` is an input and travels with each command. -/

namespace Sys2Proof

/-- Five real-time constants: the four bit times in ns and the reset duration in µs. CREATE takes
them from its operands or from the timing-table ROM (R74, R76, R101). -/
structure TimingConstants where
  t0hNs : Word
  t0lNs : Word
  t1hNs : Word
  t1lNs : Word
  resetUs : Word
  deriving DecidableEq, Repr

/-- What is fixed when the block is built: `w`, the width in bits of `BYTE_INDEX`, `CAP`,
`symbols_written` and the data length (R9, decision D5), and the timing-table ROM (R10, R30). -/
structure Config where
  w : Nat
  rom : TimingConstants
  deriving DecidableEq, Repr

/-- The default parameters: `W` is 32 and the ROM holds 300, 900, 900, 300 ns and 50 µs
(R9, R30; log entry 4). -/
def Config.reference : Config where
  w := 32
  rom := { t0hNs := 300, t0lNs := 900, t1hNs := 900, t1lNs := 300, resetUs := 50 }

end Sys2Proof
end

