-- ==== Sys2Proof/Syntax.lean ====
section
/-! DEFINITION. The commands of the block: one constructor of `Instr` for each row of
spec/opcode_table.json, with the operands of spec/30_encoding.md R76, and the command pair
`(word, operands)` as it arrives on the command port (R70). -/

namespace Sys2Proof

/-- The bit order of CREATE's field `BO` and of register `BIT_ORDER`: 0 is MSB first, 1 is LSB first
(R22, R71, R73). -/
inductive BitOrder where
  | msbFirst
  | lsbFirst
  deriving DecidableEq, Repr

/-- The five command forms with their operands (R72, R76, R85, R86). -/
inductive Instr where
  /-- CREATE with `SRC = 0`: `BO`, `RES_HZ` and the five timing operands (R108). -/
  | create (order : BitOrder) (resHz : Word) (times : TimingConstants)
  /-- CREATE with `SRC = 1`: `BO` and `RES_HZ`; the five constants come from the ROM (R108). -/
  | createRom (order : BitOrder) (resHz : Word)
  /-- ENCODE: DATA, `CAP`, and the destination space DEST of `CAP` positions (R152). -/
  | encode (data : List Byte) (cap : Nat) (dest : Memory)
  /-- RESET: no operand (R170). -/
  | reset
  /-- DISPOSE: no operand (R172). -/
  | dispose
  deriving DecidableEq, Repr

/-- The operand record that comes with a command word. One record has room for the operands of
every command, and a command takes the ones R76 gives it and ignores the rest (log entry 7). -/
structure Operands where
  resHz : Word
  times : TimingConstants
  data : List Byte
  cap : Nat
  dest : Memory
  deriving DecidableEq, Repr

/-- The operand record that holds nothing: zeros, no DATA, no DEST. -/
def Operands.zero : Operands where
  resHz := 0
  times := { t0hNs := 0, t0lNs := 0, t1hNs := 0, t1lNs := 0, resetUs := 0 }
  data := []
  cap := 0
  dest := []

/-- A command is a pair `(word, operands)` (R70). -/
structure Command where
  word : Word
  operands : Operands
  deriving DecidableEq, Repr

/-- One use of the command port: a command, and the draw `alloc_ok` that the environment supplies
if the command turns out to be a CREATE that passes its checks (R109; log entry 3). -/
structure Transaction where
  command : Command
  allocOk : Bool
  deriving DecidableEq, Repr

end Sys2Proof
end

