-- ==== Sys2Proof/WellFormed.lean ====
section
/-! DEFINITION. Which instructions can be expressed at all: the operand widths of
spec/30_encoding.md R76 and R77, and the form of a destination space (spec/20_memory.md R50). -/

namespace Sys2Proof

/-- The canonical form of a destination space: positions strictly rising. An unlisted position has
no value, so no entry can repeat it, and equal spaces are equal lists. -/
abbrev Memory.wf (m : Memory) : Prop := m.Pairwise (fun a b => a.1 < b.1)

/-- The largest value of a field of `w` bits (R50, R77). -/
def maxOfWidth (w : Nat) : Nat := 2 ^ w - 1

/-- An instruction the command port can carry when `W` is `w`. DATA has at most `2^W - 1` bytes,
`CAP` fits its field, and DEST is a space of `CAP` positions in canonical form (R50, R76, R77).
Every other operand has its width in its type. -/
def Instr.wf (w : Nat) : Instr → Bool
  | .create _ _ _ => true
  | .createRom _ _ => true
  | .encode data cap dest =>
      decide (data.length ≤ maxOfWidth w) && decide (cap ≤ maxOfWidth w) &&
        decide (Memory.wf dest) && dest.all (fun cell => decide (cell.1 < cap))
  | .reset => true
  | .dispose => true

end Sys2Proof
end

