-- ==== Sys2Proof/Decode.lean ====
section
/-! DEFINITION. The decoder of spec/30_encoding.md R81, total on every 32-bit word and rejecting by
name (R82), and the encoder from the encodings of R71, R72, R87 and spec/opcode_table.json. -/

namespace Sys2Proof

/-- Why a word is illegal: the three classes of R82. The block reports all three alike, as
ILLEGAL_COMMAND; the names are the model's (log entry 14). -/
inductive Illegal where
  /-- A bit of `RSVD`, bits 31:6, is set (R75). -/
  | reservedBits
  /-- `OP` is none of the four commands (R72). -/
  | unassignedOpcode
  /-- `BO` or `SRC` is set in a word whose `OP` is not CREATE (R75). -/
  | fieldOutsideCreate
  deriving DecidableEq, Repr

/-- `OP`, bits 3:0 (R71). -/
def opField (word : Word) : BitVec 4 := word.extractLsb' 0 4

/-- `BO`, bit 4 (R71). -/
def boField (word : Word) : Bool := word.getLsbD 4

/-- `SRC`, bit 5 (R71). -/
def srcField (word : Word) : Bool := word.getLsbD 5

/-- Bits 5:4, `SRC` and `BO` together (R81). -/
def createFields (word : Word) : BitVec 2 := word.extractLsb' 4 2

/-- `RSVD`, bits 31:6 (R71). -/
def reservedField (word : Word) : BitVec 26 := word.extractLsb' 6 26

/-- `BO` read as a bit order: 0 is MSB first, 1 is LSB first (R71, R73). -/
def orderOfBit : Bool → BitOrder
  | false => .msbFirst
  | true => .lsbFirst

/-- A bit order written as `BO`. -/
def bitOfOrder : BitOrder → Bool
  | .msbFirst => false
  | .lsbFirst => true

/-- What a word alone selects: CREATE with its two fields, or one of the other three commands (R81). -/
inductive Form where
  | create (order : BitOrder) (src : Bool)
  | encode
  | reset
  | dispose
  deriving DecidableEq, Repr

/-- The decoder of a word, its tests in the order of R81. -/
def decodeWord (word : Word) : Except Illegal Form :=
  if reservedField word ≠ 0 then .error .reservedBits
  else if opField word = 0x1 then
    .ok (.create (orderOfBit (boField word)) (srcField word))
  else if createFields word ≠ 0 then
    if opField word = 0x2 ∨ opField word = 0x3 ∨ opField word = 0x4 then
      .error .fieldOutsideCreate
    else .error .unassignedOpcode
  else if opField word = 0x2 then .ok .encode
  else if opField word = 0x3 then .ok .reset
  else if opField word = 0x4 then .ok .dispose
  else .error .unassignedOpcode

/-- The operands R76 gives the selected command, taken from the operand record. CREATE takes the timing
operands only when `SRC = 0` (R74). -/
def withOperands (o : Operands) : Form → Instr
  | .create order false => .create order o.resHz o.times
  | .create order true => .createRom order o.resHz
  | .encode => .encode o.data o.cap o.dest
  | .reset => .reset
  | .dispose => .dispose

/-- The decoder of a command: its word selects the form, its record gives the operands (R70, R81). -/
def decode (c : Command) : Except Illegal Instr :=
  match decodeWord c.word with
  | .error e => .error e
  | .ok f => .ok (withOperands c.operands f)

/-- A one-bit field moved to bit `k` of the command word. -/
def fieldAt (b : Bool) (k : Nat) : Word := (BitVec.ofBool b).zeroExtend 32 <<< k

/-- The command word of an instruction: `OP`, with `BO << 4` and `SRC << 5` for CREATE
(R71, R72, R108). -/
def encodeWord : Instr → Word
  | .create order _ _ => 0x00000001 ||| fieldAt (bitOfOrder order) 4 ||| fieldAt false 5
  | .createRom order _ => 0x00000001 ||| fieldAt (bitOfOrder order) 4 ||| fieldAt true 5
  | .encode _ _ _ => 0x00000002
  | .reset => 0x00000003
  | .dispose => 0x00000004

/-- The operand record of an instruction, zero where R76 gives the command no operand. -/
def encodeOperands : Instr → Operands
  | .create _ resHz times => { Operands.zero with resHz := resHz, times := times }
  | .createRom _ resHz => { Operands.zero with resHz := resHz }
  | .encode data cap dest => { Operands.zero with data := data, cap := cap, dest := dest }
  | .reset => Operands.zero
  | .dispose => Operands.zero

/-- The command that stands for an instruction. -/
def encode (i : Instr) : Command := { word := encodeWord i, operands := encodeOperands i }

/-- The command with word `w` and an operand record of zeros. -/
def commandOfWord (w : Nat) : Command :=
  { word := BitVec.ofNat 32 w, operands := Operands.zero }

/-- The instruction the decoder reads from a table row's word, with operands of zero; `none` where
the word is illegal or does not fit the one length of 32 bits (R71, R84). -/
def decodeTableWord (nbits w : Nat) : Option Instr :=
  if nbits ≤ 32 ∧ w < 2 ^ 32 then
    match decode (commandOfWord w) with
    | .ok i => some i
    | .error _ => none
  else none

end Sys2Proof
end

