-- ==== Sys2Proof/Machine/State.lean ====
section
/-! DEFINITION. The state of the block: the eleven registers of spec/10_state.md R22, the parameters
of spec/00_scope.md R9, the contract-violation record of spec/60_exceptions.md R209, and the two
sides of the command port (spec/30_encoding.md R70, R78). Plain data throughout. -/

namespace Sys2Proof.Machine

/-- Register `LIFECYCLE`, values 0, 1 and 2; value 3 is never held (R21). -/
inductive Lifecycle where
  | uncreated
  | created
  | disposed
  deriving DecidableEq, Repr

/-- Register `PHASE`, the FSM's state: 0 is DATA, 1 is RESET (R22, R150). -/
inductive Phase where
  | data
  | reset
  deriving DecidableEq, Repr

/-- The names of the registers, in the order of their ids 0 to 10 (R22). -/
inductive RegId where
  | lifecycle
  | phase
  | byteIndex
  | bitIndex
  | bitOrder
  | resHz
  | bit0High
  | bit0Low
  | bit1High
  | bit1Low
  | resetTicks
  deriving DecidableEq, Repr

/-- The status codes of R80. -/
inductive Status where
  | ok
  | configErrorResZero
  | configErrorTickOverflow
  | allocFailure
  | illegalCommand
  | invalidHandle
  | cursorOutOfRange
  deriving DecidableEq, Repr

/-- The response record of R78. -/
structure Response where
  status : Status
  written : Nat
  complete : Bool
  bufferFull : Bool
  deriving DecidableEq, Repr

/-- The two indexes of the cursor (R24): the byte that holds the next unconsumed bit, and how many
bits of it are consumed (R25). -/
structure Cursor where
  byteIndex : Nat
  bitIndex : Fin 8
  deriving DecidableEq, Repr

/-- `PulseShape = {high_ticks, low_ticks}` (R28). -/
structure PulseShape where
  high : Tick
  low : Tick
  deriving DecidableEq, Repr

/-- The result of the timing derivation (R28, R107). -/
structure TimingConfig where
  resHz : Word
  bit0 : PulseShape
  bit1 : PulseShape
  resetTicks : Tick
  deriving DecidableEq, Repr

/-- The block's registers, in full (R22). Registers 1 to 10 hold a value or are *unset*, which is the
spec's own state for a register and stands here as `none` (R23; log entry 5). -/
structure Registers where
  lifecycle : Lifecycle
  phase : Option Phase
  byteIndex : Option Nat
  bitIndex : Option (Fin 8)
  bitOrder : Option BitOrder
  resHz : Option Word
  bit0High : Option Tick
  bit0Low : Option Tick
  bit1High : Option Tick
  bit1Low : Option Tick
  resetTicks : Option Tick
  deriving DecidableEq, Repr

/-- Why the model stops with a fault. -/
inductive Fault where
  /-- Raised by `readReg`, for any command that reads an unset register: "A read of an unset register
  is a model fault" (R23). Safe: no state that a command leaves behind reaches it. -/
  | unsetRegister (r : RegId)
  /-- Raised by ENCODE if the converter were to read DATA at an index that does not exist: such a read
  "is never issued" (R51). Safe: the range check of R166 comes first. -/
  | dataIndexOutOfRange (index : Nat)
  deriving DecidableEq, Repr

/-- Why the model has no step. -/
inductive Refusal where
  /-- Raised by `exec` for an instruction that has no meaning in the model. Safe. No arm raises it. -/
  | notModelled (mnemonic : String)
  /-- Raised by `step` for an operand that the port cannot carry: "An operand wider than its field
  cannot be expressed" (R77), and a DEST that is not a space of `CAP` positions (R239,
  93_implementation_defined.md I18). Safe: no caller can send one (log entry 6). -/
  | operandNotExpressible
  deriving DecidableEq, Repr

/-- The whole state. `regs` is the block's own (R20: "the registers of rule R22 and nothing else").
The other fields are the parameters and the surroundings the spec gives a model. -/
structure State where
  /-- The registers of R22. -/
  regs : Registers
  /-- The parameters of R9. Constant: no command writes it (R30; log entry 4). -/
  config : Config
  /-- What the callers send, in order of arrival. The block takes the first (R63, R70; log entry 1). -/
  port : List Transaction
  /-- The draw `alloc_ok` supplied with the command being executed (R109; log entry 3). -/
  allocOk : Bool
  /-- The response to the last command; `none` before the first (R78; log entry 2). -/
  response : Option Response
  /-- DEST of the last ENCODE, as that command left it (R54, R60; log entry 2). -/
  dest : Memory
  /-- Every contract-violation status returned, oldest first, never cleared (R209). -/
  violations : List Status
  deriving DecidableEq, Repr

/-- What one step of the model answers. -/
abbrev Result := Host.Outcome State Fault Refusal

/-- Power-on: `LIFECYCLE` is UNCREATED, registers 1 to 10 are unset, the ROM holds its default values
and no command is in progress (R230). The remaining fields are the model's (log entries 1 to 4). -/
def State.reset : State where
  regs :=
    { lifecycle := .uncreated, phase := none, byteIndex := none, bitIndex := none,
      bitOrder := none, resHz := none, bit0High := none, bit0Low := none, bit1High := none,
      bit1Low := none, resetTicks := none }
  config := Config.reference
  port := []
  allocOk := true
  response := none
  dest := []
  violations := []

end Sys2Proof.Machine
end

