-- ==== Sys2Proof/Machine/Flags.lean ====
section
/-! DEFINITION. The numeric codes of the registers and statuses, and the response records: the flags
`COMPLETE` and `BUFFER_FULL` exist only there (spec/10_state.md R34; spec/30_encoding.md R78 to R80). -/

namespace Sys2Proof.Machine

/-- The code of a status in the 8-bit field `STATUS` (R80). -/
def statusCode : Status → BitVec 8
  | .ok => 0x00
  | .configErrorResZero => 0x01
  | .configErrorTickOverflow => 0x02
  | .allocFailure => 0x03
  | .illegalCommand => 0x04
  | .invalidHandle => 0x05
  | .cursorOutOfRange => 0x06

/-- The value held in the 2-bit register `LIFECYCLE` (R21). -/
def lifecycleCode : Lifecycle → BitVec 2
  | .uncreated => 0
  | .created => 1
  | .disposed => 2

/-- The value held in the 1-bit register `PHASE` (R22). -/
def phaseCode : Phase → BitVec 1
  | .data => 0
  | .reset => 1

/-- The value held in the 1-bit register `BIT_ORDER`, which CREATE copies from `BO` (R22, R73). -/
def bitOrderCode : BitOrder → BitVec 1
  | .msbFirst => 0
  | .lsbFirst => 1

/-- The bit that stands for a level: 1 is high (R31). -/
def levelCode : Level → BitVec 1
  | .low => 0
  | .high => 1

/-- The statuses that mean the caller broke a duty (R209). -/
def isViolation : Status → Bool
  | .illegalCommand => true
  | .invalidHandle => true
  | .cursorOutOfRange => true
  | .ok => false
  | .configErrorResZero => false
  | .configErrorTickOverflow => false
  | .allocFailure => false

/-- The response of an OK CREATE, RESET or DISPOSE (R79). -/
def okResponse : Response := { status := .ok, written := 0, complete := false, bufferFull := false }

/-- The response of a raised command: its status, and zeros (R79, R201). -/
def errorResponse (e : Status) : Response :=
  { status := e, written := 0, complete := false, bufferFull := false }

/-- `return {n, 1, 0}`: the frame is complete after `n` symbols of this call (R15, R161). -/
def completeResponse (n : Nat) : Response :=
  { status := .ok, written := n, complete := true, bufferFull := false }

/-- `return {n, 0, 1}`: the capacity ran out after `n` symbols (R15, R156, R158, R160). -/
def bufferFullResponse (n : Nat) : Response :=
  { status := .ok, written := n, complete := false, bufferFull := true }

end Sys2Proof.Machine
end

