-- ==== Sys2Proof/Machine/Ops.lean ====
section
/-! DEFINITION. The named operations over the registers, the destination space and the response:
reading and writing registers (spec/00_scope.md R12), `MemWrite` (R13), `raise` (R14) and the return
of a response (R15). The block has no trap and no return from one (spec/60_exceptions.md R200, R211):
`raise` is the one way an error is taken, and the next command simply runs. -/

namespace Sys2Proof.Machine

/-- `S.X`: read a register and go on with its value. An unset register holds no value, and reading it
is a model fault (R12, R23). -/
def readReg {α : Type} (r : Option α) (id : RegId) (k : α → Result) : Result :=
  match r with
  | some v => k v
  | none => .fault (.unsetRegister id)

/-- Read `BYTE_INDEX` and `BIT_INDEX` (R24). -/
def readCursor (r : Registers) (k : Cursor → Result) : Result :=
  readReg r.byteIndex .byteIndex fun b => readReg r.bitIndex .bitIndex fun i => k ⟨b, i⟩

/-- Read the two data shapes, registers 6 to 9 (R22, R32). -/
def readShapes (r : Registers) (k : PulseShape → PulseShape → Result) : Result :=
  readReg r.bit0High .bit0High fun h0 => readReg r.bit0Low .bit0Low fun l0 =>
    readReg r.bit1High .bit1High fun h1 => readReg r.bit1Low .bit1Low fun l1 =>
      k ⟨h0, l0⟩ ⟨h1, l1⟩

/-- Write the cursor: `PHASE`, `BYTE_INDEX` and `BIT_INDEX` (R24). -/
def writeCursor (p : Phase) (c : Cursor) (r : Registers) : Registers :=
  { r with phase := some p, byteIndex := some c.byteIndex, bitIndex := some c.bitIndex }

/-- The cursor indexes at the start of a frame, `{0, 0}`. -/
def startCursor : Cursor := ⟨0, 0⟩

/-- The registers a successful CREATE leaves: the derived timing, the bit order, the cursor
`{DATA, 0, 0}` and `LIFECYCLE = CREATED` (R108). -/
def createdRegisters (order : BitOrder) (t : TimingConfig) : Registers :=
  { lifecycle := .created, phase := some .data, byteIndex := some 0, bitIndex := some 0,
    bitOrder := some order, resHz := some t.resHz,
    bit0High := some t.bit0.high, bit0Low := some t.bit0.low,
    bit1High := some t.bit1.high, bit1Low := some t.bit1.low,
    resetTicks := some t.resetTicks }

/-- Registers 1 to 10 unset, under a given life stage (R23, R37, R172). -/
def unsetRegisters (l : Lifecycle) : Registers :=
  { lifecycle := l, phase := none, byteIndex := none, bitIndex := none, bitOrder := none,
    resHz := none, bit0High := none, bit0Low := none, bit1High := none, bit1Low := none,
    resetTicks := none }

/-- The symbol known to stand at a position of a destination space, if any. -/
def memRead (j : Nat) : Memory → Option PulseSymbol
  | [] => none
  | (k, sym) :: rest => if k = j then some sym else memRead j rest

/-- `MemWrite(DEST, j, sym)`: store one whole symbol at position `j` (R13, R53, R60). The entry goes
to its place in the rising order. -/
def memWrite (j : Nat) (sym : PulseSymbol) : Memory → Memory
  | [] => [(j, sym)]
  | (k, old) :: rest =>
      if j < k then (j, sym) :: (k, old) :: rest
      else if j = k then (j, sym) :: rest
      else (k, old) :: memWrite j sym rest

/-- Return a response: the last act of every command (R15, R70, R78). -/
def respond (r : Response) (s : State) : Result := .next { s with response := some r }

/-- `raise <Status>`: end the command with an error response. No register and no DEST position is
written (R14, R200, R201); a contract violation goes into the record that is never cleared (R209). -/
def raise (e : Status) (s : State) : Result :=
  .next
    { s with
      response := some (errorResponse e)
      violations := if isViolation e then s.violations ++ [e] else s.violations }

end Sys2Proof.Machine
end

