-- ==== Sys2Proof/Machine/Operands.lean ====
section
/-! DEFINITION. The operand forms: where CREATE takes its timing constants from (spec/30_encoding.md
R74), how ENCODE reads DATA (spec/20_memory.md R51, R56, R57), and the symbols made of the timing
registers (spec/10_state.md R32, R33). -/

namespace Sys2Proof.Machine

/-- CREATE with `SRC = 1` feeds the derivation from the timing-table ROM (R30, R74, R107). -/
def romConstants (s : State) : TimingConstants := s.config.rom

/-- `MemRead(DATA, i, 1)`: the byte at index `i`, which exists only for `i < len(DATA)` (R13, R51). -/
def dataRead (data : List Byte) (i : Nat) : Option Byte := data[i]?

/-- The bit of byte `b` that is next when `i` of its bits are consumed: `b[7 - i]` for MSB first,
`b[i]` for LSB first (R57). -/
def bitOf (order : BitOrder) (b : Byte) (i : Fin 8) : Bool :=
  match order with
  | .msbFirst => b.getLsbD (7 - i.val)
  | .lsbFirst => b.getLsbD i.val

/-- `BitAt(DATA, S)`: the bit the converter consumes next, if the byte exists (R57). -/
def bitAt (order : BitOrder) (data : List Byte) (c : Cursor) : Option Bool :=
  (dataRead data c.byteIndex).map fun b => bitOf order b c.bitIndex

/-- `DataSym(b)`: high for the bit's high time, then low for its low time (R32). -/
def dataSym (bit0 bit1 : PulseShape) (b : Bool) : PulseSymbol :=
  match b with
  | false => ⟨.high, bit0.high, .low, bit0.low⟩
  | true => ⟨.high, bit1.high, .low, bit1.low⟩

/-- `ResetSym`: both halves low, each of `RESET_TICKS` ticks (R33). -/
def resetSym (resetTicks : Tick) : PulseSymbol := ⟨.low, resetTicks, .low, resetTicks⟩

/-- `CursorInRange(S, L)`: the cursor points at a bit of DATA, or exactly at its end (R166). -/
def cursorInRange (c : Cursor) (len : Nat) : Bool :=
  decide (c.byteIndex < len) || (decide (c.byteIndex = len) && decide (c.bitIndex = 0))

/-- The cursor moves on by exactly one bit (R124). -/
def advance (c : Cursor) : Cursor :=
  if h : c.bitIndex.val = 7 then ⟨c.byteIndex + 1, 0⟩
  else ⟨c.byteIndex, ⟨c.bitIndex.val + 1, by omega⟩⟩

end Sys2Proof.Machine
end

