-- ==== Sys2Proof/Machine/Converter.lean ====
section
/-! DEFINITION. The byte-to-pulse-symbol converter (spec/42_byte_stream_encoder.md) and the
reset-pulse emitter (spec/43_reset_emitter.md): the two internal units that ENCODE calls. -/

namespace Sys2Proof.Machine

/-- The outcome triple of a unit: symbols emitted, `sub_complete`, `sub_full` (R121, R141). It is
internal and is never a response (90_conflicts.md C5). -/
structure SubOutcome where
  count : Nat
  subComplete : Bool
  subFull : Bool
  deriving DecidableEq, Repr

/-- What ContinueData leaves: the cursor, the destination and its outcome (R122). -/
structure ConverterExit where
  cursor : Cursor
  dest : Memory
  outcome : SubOutcome
  deriving DecidableEq, Repr

/-- What ContinueReset leaves: the destination and its outcome (R141). -/
structure EmitterExit where
  dest : Memory
  outcome : SubOutcome
  deriving DecidableEq, Repr

/-- The loop of ContinueData with `room` units of capacity left and `m` symbols written: the
end-of-data test first, then the capacity test, then one whole symbol and one step of the cursor
(R122 to R128). A read outside DATA has no value and would be a fault; R132 rules it out. -/
def converterLoop (order : BitOrder) (bit0 bit1 : PulseShape) (data : List Byte) :
    (room : Nat) → (m : Nat) → Cursor → Memory → Except Fault ConverterExit
  | 0, m, c, dest =>
      if c.byteIndex = data.length then .ok ⟨c, dest, ⟨m, true, false⟩⟩
      else .ok ⟨c, dest, ⟨m, false, true⟩⟩
  | room + 1, m, c, dest =>
      if c.byteIndex = data.length then .ok ⟨c, dest, ⟨m, true, false⟩⟩
      else
        match bitAt order data c with
        | none => .error (.dataIndexOutOfRange c.byteIndex)
        | some b =>
            converterLoop order bit0 bit1 data room (m + 1) (advance c)
              (memWrite m (dataSym bit0 bit1 b) dest)

/-- ContinueData: emit the data symbols from the cursor, up to the capacity, from DEST position 0
(R122). -/
def continueData (order : BitOrder) (bit0 bit1 : PulseShape) (data : List Byte) (cap : Nat)
    (c : Cursor) (dest : Memory) : Except Fault ConverterExit :=
  converterLoop order bit0 bit1 data cap 0 c dest

/-- ContinueReset: emit the reset symbol at DEST position `p`, if there is room for it (R141). -/
def continueReset (resetTicks : Tick) (cap p : Nat) (dest : Memory) : EmitterExit :=
  if cap = 0 then ⟨dest, ⟨0, false, true⟩⟩
  else ⟨memWrite p (resetSym resetTicks) dest, ⟨1, true, false⟩⟩

end Sys2Proof.Machine
end

