-- ==== Sys2Proof/Machine/Frame.lean ====
section
/-! DEFINITION. The frame FSM: ENCODE, RESET and DISPOSE (spec/44_frame_fsm.md). -/

namespace Sys2Proof.Machine

/-- Step 2 of ENCODE, entered in phase RESET with `n` symbols of this call already written (R152,
R159 to R161). `RESET_TICKS` is read here also with no capacity left, where R141 returns before it forms
`ResetSym`; that early read is the model's choice (log entry 5, DEDUCED). -/
def encodeResetStep (cap n : Nat) (s : State) : Result :=
  readReg s.regs.resetTicks .resetTicks fun ticks =>
    let e := continueReset ticks (cap - n) n s.dest
    let n' := n + e.outcome.count
    if e.outcome.subFull then respond (bufferFullResponse n') { s with dest := e.dest }
    else
      respond (completeResponse n')
        { s with regs := writeCursor .data startCursor s.regs, dest := e.dest }

/-- Step 1 of ENCODE, entered in phase DATA with a cursor in range: the converter, and then step 2 in
the same command if capacity is left (R152, R155 to R158, R165). `BIT_ORDER` and the shapes are read here also
where no bit is emitted; that early read is the model's choice (log entry 5, DEDUCED). -/
def encodeDataStep (data : List Byte) (cap : Nat) (c : Cursor) (s : State) : Result :=
  readReg s.regs.bitOrder .bitOrder fun order =>
    readShapes s.regs fun bit0 bit1 =>
      match continueData order bit0 bit1 data cap c s.dest with
      | .error fault => .fault fault
      | .ok x =>
          if x.outcome.subFull then
            respond (bufferFullResponse x.outcome.count)
              { s with regs := writeCursor .data x.cursor s.regs, dest := x.dest }
          else
            let s' := { s with regs := writeCursor .reset x.cursor s.regs, dest := x.dest }
            if cap - x.outcome.count = 0 then
              respond (bufferFullResponse x.outcome.count) s'
            else encodeResetStep cap x.outcome.count s'

/-- ENCODE once its DEST is in place: the lifecycle check and the range check come before the first
effect (R153, R166), and the phase says where to go on (R152). -/
def encodeWithDest (data : List Byte) (cap : Nat) (s : State) : Result :=
  if s.regs.lifecycle = .created then
    readReg s.regs.phase .phase fun phase =>
      match phase with
      | .data =>
          readCursor s.regs fun c =>
            if cursorInRange c data.length then encodeDataStep data cap c s
            else raise .cursorOutOfRange s
      | .reset => encodeResetStep cap 0 s
  else raise .invalidHandle s

/-- ENCODE: the command brings its own DEST (R50), which replaces that of the last ENCODE. -/
def execEncode (data : List Byte) (cap : Nat) (dest : Memory) (s : State) : Result :=
  encodeWithDest data cap { s with dest := dest }

/-- RESET: the cursor goes back to `{DATA, 0, 0}`; nothing else changes (R170, R233). -/
def execReset (s : State) : Result :=
  if s.regs.lifecycle = .created then
    respond okResponse { s with regs := writeCursor .data startCursor s.regs }
  else raise .invalidHandle s

/-- DISPOSE: registers 1 to 10 become unset and the instance is DISPOSED (R172). -/
def execDispose (s : State) : Result :=
  if s.regs.lifecycle = .created then
    respond okResponse { s with regs := unsetRegisters .disposed }
  else raise .invalidHandle s

end Sys2Proof.Machine
end

