-- ==== Sys2Proof/Machine/Timing.lean ====
section
/-! DEFINITION. The timing derivation and the two forms of CREATE (spec/41_timing_table.md). -/

namespace Sys2Proof.Machine

/-- The tick count of one bit time, exact and then truncated (R103). -/
def tickCount (tNs res : Nat) : Nat := tNs * res / 1000000000

/-- The tick count of half the reset duration, its divisions in the order written (R105). -/
def resetTickCount (us res : Nat) : Nat := res / 1000000 * us / 2

/-- The five counts before they are put into 32 bits (R104, R105). -/
structure TickCounts where
  b0h : Nat
  b0l : Nat
  b1h : Nat
  b1l : Nat
  rst : Nat
  deriving DecidableEq, Repr

/-- The five counts of a set of constants at a resolution (R103, R104, R105). -/
def tickCounts (k : TimingConstants) (res : Word) : TickCounts where
  b0h := tickCount k.t0hNs.toNat res.toNat
  b0l := tickCount k.t0lNs.toNat res.toNat
  b1h := tickCount k.t1hNs.toNat res.toNat
  b1l := tickCount k.t1lNs.toNat res.toNat
  rst := resetTickCount k.resetUs.toNat res.toNat

/-- A count that a 32-bit tick field can hold (R106). -/
def fitsTick (n : Nat) : Bool := decide (n ≤ 2 ^ 32 - 1)

/-- All five counts fit (R106). -/
def countsFit (t : TickCounts) : Bool :=
  fitsTick t.b0h && fitsTick t.b0l && fitsTick t.b1h && fitsTick t.b1l && fitsTick t.rst

/-- The timing configuration made of five counts. -/
def timingOfCounts (res : Word) (t : TickCounts) : TimingConfig where
  resHz := res
  bit0 := ⟨BitVec.ofNat 32 t.b0h, BitVec.ofNat 32 t.b0l⟩
  bit1 := ⟨BitVec.ofNat 32 t.b1h, BitVec.ofNat 32 t.b1l⟩
  resetTicks := BitVec.ofNat 32 t.rst

/-- `TimingDerive`: a zero resolution fails first, then a count that does not fit (R102, R106, R107).
Nothing wraps. -/
def deriveTiming (k : TimingConstants) (res : Word) : Except Status TimingConfig :=
  if res = 0 then .error .configErrorResZero
  else if countsFit (tickCounts k res) then .ok (timingOfCounts res (tickCounts k res))
  else .error .configErrorTickOverflow

/-- CREATE over given constants: the lifecycle check, the derivation, the allocation draw, and only
then the registers (R108, R109, R210). -/
def createWith (order : BitOrder) (res : Word) (k : TimingConstants) (s : State) : Result :=
  if s.regs.lifecycle = .created then raise .invalidHandle s
  else
    match deriveTiming k res with
    | .error e => raise e s
    | .ok t =>
        if s.allocOk then respond okResponse { s with regs := createdRegisters order t }
        else raise .allocFailure s

/-- CREATE with `SRC = 0`: the constants are the operands (R74, R108). -/
def execCreate (order : BitOrder) (resHz : Word) (times : TimingConstants) (s : State) : Result :=
  createWith order resHz times s

/-- CREATE with `SRC = 1`: the constants are the ROM's (R74, R107, R108). -/
def execCreateRom (order : BitOrder) (resHz : Word) (s : State) : Result :=
  createWith order resHz (romConstants s) s

end Sys2Proof.Machine
end

