-- ==== Sys2Proof/Machine/Dispatch.lean ====
section
/-! DEFINITION. One arm per command form of spec/opcode_table.json. -/

namespace Sys2Proof.Machine

def exec (i : Instr) (s : State) : Host.Outcome State Fault Refusal :=
  match i with
  | .create order resHz times => Sys2Proof.Machine.execCreate order resHz times s
  | .createRom order resHz => Sys2Proof.Machine.execCreateRom order resHz s
  | .encode data cap dest => Sys2Proof.Machine.execEncode data cap dest s
  | .reset => Sys2Proof.Machine.execReset s
  | .dispose => Sys2Proof.Machine.execDispose s

end Sys2Proof.Machine
end

