-- ==== Sys2Proof/Machine/Port.lean ====
section
/-! DEFINITION. The command port (spec/30_encoding.md R70): taking the next command off it, and what
becomes of one command from its arrival to its response. -/

namespace Sys2Proof.Machine

/-- Take a transaction off the port: the callers' remaining commands are `rest`, and the environment's
draw is the one that came with the command (R70, R109). -/
def accept (t : Transaction) (rest : List Transaction) (s : State) : State :=
  { s with port := rest, allocOk := t.allocOk }

/-- One accepted command: an illegal word raises ILLEGAL_COMMAND in every lifecycle state (R82, R206,
R210); a legal one whose operands can be expressed runs (R70); others have no step (R77). -/
def runCommand (c : Command) (s : State) : Result :=
  match decode c with
  | .error _ => raise .illegalCommand s
  | .ok i => if i.wf s.config.w then exec i s else .refused .operandNotExpressible

/-- The next command of the port, executed whole (R60, R63, R70). A block with no command before it
waits: "It runs nothing on its own: it waits for its first command" (R231; log entry 1). -/
def nextCommand (s : State) : Result :=
  match s.port with
  | [] => .next s
  | t :: rest => runCommand t.command (accept t rest s)

/-- The transaction that brings the word `w` with operands of zero and a successful draw. -/
def transactionOfWord (w : Nat) : Transaction := { command := commandOfWord w, allocOk := true }

end Sys2Proof.Machine
end

