-- ==== Sys2Proof/Machine/Step.lean ====
section
/-! DEFINITION. One step of the machine: one command of the port (spec/30_encoding.md R70). -/

namespace Sys2Proof.Machine

/-- One step: the next command of the port, from its arrival to its response (R8, R70). -/
def step (s : State) : Host.Outcome State Fault Refusal := nextCommand s

/-- `s` with the word `w`, operands of zero, before every command already on the port, so that the
next step runs exactly it. -/
def State.withFetchWord (s : State) (_nbits w : Nat) : State :=
  { s with port := transactionOfWord w :: s.port }

end Sys2Proof.Machine
end

