-- ==== Sys2Proof/Machine/Assembler.lean ====
section
/-! DEFINITION. The textual syntax of spec/30_encoding.md R85: the parts of a line and the command they
stand for, and the reader from the characters of a line to its parts (log entry 17). -/

namespace Sys2Proof.Machine

/-- One line of R85. `order` may be left out (R85). An `encode` line names DATA and `CAP`; DEST has no
text. -/
inductive AsmLine where
  | create (res t0h t0l t1h t1l rst : Word) (order : Option BitOrder)
  | createRom (res : Word) (order : Option BitOrder)
  | encode (data : List Byte) (cap : Nat)
  | reset
  | dispose
  deriving DecidableEq, Repr

/-- `order` defaults to `msb` (R85). -/
def asmOrder (order : Option BitOrder) : BitOrder := order.getD .msbFirst

/-- The instruction a line stands for, with the DEST its caller provides (R85). -/
def asmInstr (dest : Memory) : AsmLine → Instr
  | .create res t0h t0l t1h t1l rst order =>
      .create (asmOrder order) res
        { t0hNs := t0h, t0lNs := t0l, t1hNs := t1h, t1lNs := t1l, resetUs := rst }
  | .createRom res order => .createRom (asmOrder order) res
  | .encode data cap => .encode data cap dest
  | .reset => .reset
  | .dispose => .dispose

/-- The command of a line: exactly one command word, and its operands (R85, R86). -/
def assemble (dest : Memory) (line : AsmLine) : Command := Sys2Proof.encode (asmInstr dest line)

/-! ### From characters to the parts of a line -/

/-- A token of a line: one of the marks `=`, `,`, `[` and `]`, or a run of other characters. -/
inductive Token where
  | mark (c : Char)
  | text (cs : List Char)
  deriving DecidableEq, Repr

/-- The four marks of the syntax. -/
def isMark (c : Char) : Bool := c == '=' || c == ',' || c == '[' || c == ']'

/-- What may stand between tokens: spaces and tabs (log entry 17). -/
def isBlank (c : Char) : Bool := c == ' ' || c == '\t'

/-- The line without its comment: "`;` starts a comment that runs to the end of the line" (R85). -/
def stripComment (line : List Char) : List Char := line.takeWhile (· != ';')

/-- A finished run of characters, put before the tokens that follow it; an empty run is no token. -/
def endRun (run : List Char) (rest : List Token) : List Token :=
  match run with
  | [] => rest
  | _ :: _ => .text run :: rest

/-- Cut a line into tokens. `run` is the run of characters read so far. -/
def tokens : (run : List Char) → List Char → List Token
  | run, [] => endRun run []
  | run, c :: rest =>
      if isMark c then endRun run (.mark c :: tokens [] rest)
      else if isBlank c then endRun run (tokens [] rest)
      else tokens (run ++ [c]) rest

/-- The value of a digit in a base, if it is one. Hexadecimal digits of either case (log entry 17). -/
def digitValue (base : Nat) (c : Char) : Option Nat :=
  let v :=
    if '0' ≤ c ∧ c ≤ '9' then c.toNat - 48
    else if 'a' ≤ c ∧ c ≤ 'f' then c.toNat - 87
    else if 'A' ≤ c ∧ c ≤ 'F' then c.toNat - 55
    else base
  if v < base then some v else none

/-- The number a list of digits stands for, most significant first, after the value `acc`. -/
def digitsValue (base : Nat) : (acc : Nat) → List Char → Option Nat
  | acc, [] => some acc
  | acc, c :: rest => (digitValue base c).bind fun v => digitsValue base (acc * base + v) rest

/-- A numeral without its prefix. "Underscores between digits are ignored" (R85), so none stands first
or last. -/
def readNumeral (base : Nat) (cs : List Char) : Option Nat :=
  if cs = [] ∨ cs.head? = some '_' ∨ cs.getLast? = some '_' then none
  else digitsValue base 0 (cs.filter (· != '_'))

/-- "Numbers are decimal, or hexadecimal with a `0x` prefix" (R85). -/
def readNumber : List Char → Option Nat
  | '0' :: 'x' :: cs => readNumeral 16 cs
  | cs => readNumeral 10 cs

/-- A number that fits a field of `bits` bits; a wider operand cannot be expressed (R77). -/
def readField (bits : Nat) (cs : List Char) : Option (BitVec bits) :=
  (readNumber cs).bind fun n => if n < 2 ^ bits then some (BitVec.ofNat bits n) else none

/-- `<name>=<n>` at the head of the tokens, with the tokens after it. -/
def takeWord (name : String) : List Token → Option (Word × List Token)
  | .text n :: .mark '=' :: .text v :: rest =>
      if n = name.toList then (readField 32 v).map fun w => (w, rest) else none
  | _ => none

/-- `, <name>=<n>` at the head of the tokens. -/
def takeNext (name : String) : List Token → Option (Word × List Token)
  | .mark ',' :: rest => takeWord name rest
  | _ => none

/-- The end of a `create` or `create.rom` line: nothing, or `, order=msb` or `, order=lsb`. -/
def readOrder : List Token → Option (Option BitOrder)
  | [] => some none
  | [.mark ',', .text n, .mark '=', .text v] =>
      if n = "order".toList then
        if v = "msb".toList then some (some .msbFirst)
        else if v = "lsb".toList then some (some .lsbFirst)
        else none
      else none
  | _ => none

/-- The bytes of `data` after the first bracket, up to the closing one, at least one of them. -/
def readBytes : List Token → Option (List Byte × List Token)
  | .text v :: .mark ']' :: rest => (readField 8 v).map fun b => ([b], rest)
  | .text v :: .mark ',' :: rest =>
      (readField 8 v).bind fun b => (readBytes rest).map fun x => (b :: x.1, x.2)
  | _ => none

/-- `data=[...]` at the head of the tokens. -/
def readData : List Token → Option (List Byte × List Token)
  | .text n :: .mark '=' :: .mark '[' :: rest =>
      if n = "data".toList then
        match rest with
        | .mark ']' :: rest' => some ([], rest')
        | _ => readBytes rest
      else none
  | _ => none

/-- `, cap=<n>` and the end of the line. The width of `CAP` is a parameter, so it is checked with the
instruction (`Instr.wf`) and not here. -/
def readCap : List Token → Option Nat
  | [.mark ',', .text n, .mark '=', .text v] => if n = "cap".toList then readNumber v else none
  | _ => none

/-- The operands of a `create` line, in the order of R85. -/
def readCreate (ts : List Token) : Option AsmLine :=
  (takeWord "res" ts).bind fun res => (takeNext "t0h" res.2).bind fun t0h =>
    (takeNext "t0l" t0h.2).bind fun t0l => (takeNext "t1h" t0l.2).bind fun t1h =>
      (takeNext "t1l" t1h.2).bind fun t1l => (takeNext "rst" t1l.2).bind fun rst =>
        (readOrder rst.2).map fun order =>
          .create res.1 t0h.1 t0l.1 t1h.1 t1l.1 rst.1 order

/-- The operands of a `create.rom` line. -/
def readCreateRom (ts : List Token) : Option AsmLine :=
  (takeWord "res" ts).bind fun res => (readOrder res.2).map fun order => .createRom res.1 order

/-- The operands of an `encode` line. -/
def readEncode (ts : List Token) : Option AsmLine :=
  (readData ts).bind fun data => (readCap data.2).map fun cap => .encode data.1 cap

/-- A line from its tokens: the mnemonic comes first, and `reset` and `dispose` stand alone (R85). -/
def readTokens : List Token → Option AsmLine
  | .text n :: ts =>
      if n = "create".toList then readCreate ts
      else if n = "create.rom".toList then readCreateRom ts
      else if n = "encode".toList then readEncode ts
      else if n = "reset".toList ∧ ts = [] then some .reset
      else if n = "dispose".toList ∧ ts = [] then some .dispose
      else none
  | _ => none

/-- A line from its characters; `none` where it is no line of R85, a line with only a comment
among them. -/
def readLine (line : List Char) : Option AsmLine := readTokens (tokens [] (stripComment line))

/-- The command of a line of text, with the DEST its caller provides (R85, R86). -/
def assembleText (dest : Memory) (line : String) : Option Command :=
  (readLine line.toList).map (assemble dest)

end Sys2Proof.Machine
end

