-- ==== Sys2Proof/Safety.lean ====
section
/-! DEFINITION. The terms in which claims are made: the invariant of a state (spec/10_state.md R23, R27,
R29), the named premises of spec/70_reset_and_hazards.md R247, the bit stream of DATA
(spec/42_byte_stream_encoder.md R131), the symbols owed (spec/44_frame_fsm.md R167), and what a
sequence of ENCODE calls puts out (R174, R244). -/

namespace Sys2Proof.Machine

/-- The values of registers 1 to 10 when all of them are set (R22). -/
structure Held where
  phase : Phase
  cursor : Cursor
  order : BitOrder
  timing : TimingConfig
  deriving DecidableEq, Repr

/-- The registers of a CREATED instance that holds the values `v`. -/
def heldRegisters (v : Held) : Registers :=
  { lifecycle := .created, phase := some v.phase, byteIndex := some v.cursor.byteIndex,
    bitIndex := some v.cursor.bitIndex, bitOrder := some v.order, resHz := some v.timing.resHz,
    bit0High := some v.timing.bit0.high, bit0Low := some v.timing.bit0.low,
    bit1High := some v.timing.bit1.high, bit1Low := some v.timing.bit1.low,
    resetTicks := some v.timing.resetTicks }

/-- The cursor and timing invariants (R27, R29): `BYTE_INDEX ≤ 2^W - 1`, `BIT_INDEX = 0` in phase
RESET, and `RES_HZ > 0`. `BIT_INDEX ≤ 7` and the tick widths stand in the types. -/
def HeldFits (w : Nat) (v : Held) : Prop :=
  v.cursor.byteIndex ≤ maxOfWidth w ∧ (v.phase = .reset → v.cursor.bitIndex = 0) ∧
    v.timing.resHz ≠ 0

/-- The invariant of every state a command leaves behind. -/
structure Inv (s : State) : Prop where
  /-- A CREATED instance has registers 1 to 10 set and fitting (R23, R27, R29); any other has them
  unset (R37). -/
  registers : (∃ v, s.regs = heldRegisters v ∧ HeldFits s.config.w v) ∨
    (s.regs.lifecycle ≠ .created ∧ s.regs = unsetRegisters s.regs.lifecycle)
  /-- The destination space is in canonical form. -/
  dest : Memory.wf s.dest
  /-- The record of R209 holds contract violations only. -/
  violations : ∀ e ∈ s.violations, isViolation e = true

/-! ### The named premises of R247

`Serial` has no definition: the port takes one whole command at a time, and DATA is a value of the
command that brings it, so no state breaks it (R243). -/

/-- `Fresh(S)`, for the registers `v` of a CREATED instance: the cursor is `{DATA, 0, 0}`. -/
def Fresh (v : Held) : Prop := v.phase = .data ∧ v.cursor = startCursor

/-- `NoViolation`: the contract-violation record is empty (R209). -/
def NoViolation (s : State) : Prop := s.violations = []

/-- `AllocOk`: the draw that comes with the command is true (R109). -/
def AllocOk (s : State) : Prop := s.allocOk = true

/-- `Decodable`: `DataSym(0) ≠ DataSym(1)` under the timing held. -/
def Decodable (v : Held) : Prop :=
  dataSym v.timing.bit0 v.timing.bit1 false ≠ dataSym v.timing.bit0 v.timing.bit1 true

/-- `ResetNonZero`: `RESET_TICKS ≥ 1`. -/
def ResetNonZero (v : Held) : Prop := 1 ≤ v.timing.resetTicks.toNat

/-- One ENCODE call of a frame: the operands it brings. -/
structure Call where
  data : List Byte
  cap : Nat
  dest : Memory
  deriving DecidableEq, Repr

/-- `SameData(D)`: every call passes the same DATA. -/
def SameData (data : List Byte) (calls : List Call) : Prop := ∀ k ∈ calls, k.data = data

/-- `PositiveCap`: every call has `CAP ≥ 1`. -/
def PositiveCap (calls : List Call) : Prop := ∀ k ∈ calls, 1 ≤ k.cap

/-- `EnoughCap(D)`: the capacities sum to at least `8 * len(D) + 1`. -/
def EnoughCap (data : List Byte) (calls : List Call) : Prop :=
  8 * data.length + 1 ≤ (calls.map (·.cap)).sum

/-! ### Bits, positions and symbols -/

/-- `8 * BYTE_INDEX + BIT_INDEX`: the data bits of the frame already emitted (R25, R124). -/
def bitPosition (c : Cursor) : Nat := 8 * c.byteIndex + c.bitIndex.val

/-- The cursor at a bit position, `{k div 8, k mod 8}` (R131). -/
def cursorAt (k : Nat) : Cursor := ⟨k / 8, ⟨k % 8, Nat.mod_lt k (by decide)⟩⟩

/-- `bitstream(k)`: bit `k` of DATA in stream order, if DATA has it (R131). -/
def bitStream (order : BitOrder) (data : List Byte) (k : Nat) : Option Bool :=
  bitAt order data (cursorAt k)

/-- The symbol of stream bit `k` under the registers `v` (R131). -/
def streamSym (v : Held) (data : List Byte) (k : Nat) : Option PulseSymbol :=
  (bitStream v.order data k).map (dataSym v.timing.bit0 v.timing.bit1)

/-- `rem = 8 * (L - BYTE_INDEX) - BIT_INDEX`: the data bits that remain (R130). -/
def remainingBits (len : Nat) (c : Cursor) : Nat := 8 * (len - c.byteIndex) - c.bitIndex.val

/-- `Owed(S, L)`: the symbols the current frame still needs (R167). -/
def owed (len : Nat) (v : Held) : Nat :=
  match v.phase with
  | .data => remainingBits len v.cursor + 1
  | .reset => 1

/-- The cursor check of R166 as ENCODE makes it: in phase RESET it is not made. -/
def encodeInRange (len : Nat) (v : Held) : Prop :=
  v.phase = .data → cursorInRange v.cursor len = true

/-- The bits of one byte in a bit order, written out (R56, R57). -/
def byteBits (order : BitOrder) (b : Byte) : List Bool :=
  match order with
  | .msbFirst => [b.getLsbD 7, b.getLsbD 6, b.getLsbD 5, b.getLsbD 4,
      b.getLsbD 3, b.getLsbD 2, b.getLsbD 1, b.getLsbD 0]
  | .lsbFirst => [b.getLsbD 0, b.getLsbD 1, b.getLsbD 2, b.getLsbD 3,
      b.getLsbD 4, b.getLsbD 5, b.getLsbD 6, b.getLsbD 7]

/-- A whole frame: one symbol for each bit of each byte in order, and then the reset symbol (R174). -/
def frameSymbols (v : Held) (data : List Byte) : List PulseSymbol :=
  (data.flatMap (byteBits v.order)).map (dataSym v.timing.bit0 v.timing.bit1) ++
    [resetSym v.timing.resetTicks]

/-- The symbols of DEST positions `0 .. n - 1`, in order (R54). -/
def writtenSymbols (n : Nat) (m : Memory) : List PulseSymbol :=
  (List.range n).filterMap fun j => memRead j m

/-! ### Sequences of commands -/

/-- Commands executed one after the other, stopping at the first fault or refusal (R63). -/
def execAll : List Instr → State → Result
  | [], s => .next s
  | i :: rest, s =>
      match exec i s with
      | .next t => execAll rest t
      | .fault f => .fault f
      | .refused r => .refused r

/-- The frame that a sequence of ENCODE calls puts out: the concatenation of DEST positions
`0 .. WRITTEN - 1` of each OK call, up to and including the call that returns `COMPLETE`, with the state
after it (R174, R244). A raised call adds nothing. `none` if no call completes. -/
def frameOutput : List Call → State → Option (List PulseSymbol × State)
  | [], _ => none
  | k :: rest, s =>
      match exec (.encode k.data k.cap k.dest) s with
      | .next t =>
          match t.response with
          | some r =>
              if r.status = .ok then
                if r.complete then some (writtenSymbols r.written t.dest, t)
                else (frameOutput rest t).map fun o => (writtenSymbols r.written t.dest ++ o.1, o.2)
              else frameOutput rest t
          | none => none
      | .fault _ => none
      | .refused _ => none

/-! ### Frames of a run

R244 for any run of the machine: a frame is what every ENCODE since the last `COMPLETE`, RESET or CREATE
put out. The log below is kept beside a run and is no part of State (log entry 18). -/

/-- One frame: its symbols, and whether an ENCODE ended it with `COMPLETE`. A frame cut short "has no end
and carries no reset symbol" (R244). -/
structure Frame where
  symbols : List PulseSymbol
  ended : Bool
  deriving DecidableEq, Repr

/-- The frames of a run: those that ended or were cut short, oldest first, and the symbols of the one
that is open, if an ENCODE has begun one. -/
structure FrameLog where
  frames : List Frame
  current : Option (List PulseSymbol)
  deriving DecidableEq, Repr

/-- No frame yet. -/
def FrameLog.empty : FrameLog := ⟨[], none⟩

/-- A bound other than `COMPLETE`: the open frame, if there is one, is cut short (R171, R244). -/
def FrameLog.cut (g : FrameLog) : FrameLog :=
  match g.current with
  | none => g
  | some out => ⟨g.frames ++ [⟨out, false⟩], none⟩

/-- An OK ENCODE: its symbols go after those of the open frame, and `COMPLETE` ends the frame. -/
def FrameLog.encoded (r : Response) (dest : Memory) (g : FrameLog) : FrameLog :=
  if r.complete then
    ⟨g.frames ++ [⟨g.current.getD [] ++ writtenSymbols r.written dest, true⟩], none⟩
  else { g with current := some (g.current.getD [] ++ writtenSymbols r.written dest) }

/-- A command that has run, with its response and the destination space it left. One that raised an
error neither adds to a frame nor bounds one. -/
def FrameLog.command (i : Instr) (r : Response) (dest : Memory) (g : FrameLog) : FrameLog :=
  if r.status = .ok then
    match i with
    | .create _ _ _ => g.cut
    | .createRom _ _ => g.cut
    | .encode _ _ _ => g.encoded r dest
    | .reset => g.cut
    | .dispose => g.cut
  else g

/-- What the step from `s` to `u` does to the frames. A wait and an illegal word do nothing. -/
def FrameLog.step (s u : State) (g : FrameLog) : FrameLog :=
  match s.port with
  | [] => g
  | t :: _ =>
      match decode t.command, u.response with
      | .ok i, some r => g.command i r u.dest
      | .ok _, none => g
      | .error _, _ => g

/-- `n` steps with their frames; `none` if one of them is not to a next state. -/
def runFrames : (n : Nat) → State → FrameLog → Option (State × FrameLog)
  | 0, s, g => some (s, g)
  | n + 1, s, g =>
      match step s with
      | .next u => runFrames n u (g.step s u)
      | .fault _ => none
      | .refused _ => none

/-- A symbol with the levels of a data symbol, high and then low (R32). A reset symbol is none (R33). -/
def isDataSymbol (x : PulseSymbol) : Prop := x.levelHigh = .high ∧ x.levelLow = .low

/-- A frame as R244 says: data symbols, and after them one reset symbol exactly if it ended. -/
def Frame.WellFormed (f : Frame) : Prop :=
  ∃ body, (∀ x ∈ body, isDataSymbol x) ∧
    ((f.ended = true ∧ ∃ ticks, f.symbols = body ++ [resetSym ticks]) ∨
      (f.ended = false ∧ f.symbols = body))

/-- Every frame of the log is well formed, and the open one holds data symbols only. -/
def FrameLog.WellFormed (g : FrameLog) : Prop :=
  (∀ f ∈ g.frames, f.WellFormed) ∧ ∀ out, g.current = some out → ∀ x ∈ out, isDataSymbol x

/-- The capacity a transaction brings to a frame: that of an ENCODE, and otherwise none. -/
def broughtCap (t : Transaction) : Nat :=
  match decode t.command with
  | .ok (.encode _ cap _) => cap
  | .ok (.create _ _ _) => 0
  | .ok (.createRom _ _) => 0
  | .ok .reset => 0
  | .ok .dispose => 0
  | .error _ => 0

end Sys2Proof.Machine
end

