-- ==== Sys2Proof/Certificates/Slice0/Obligations.lean ====
section
/-! DEFINITION. The statements for the provers, one `def Obligations.<Name> : Prop` each. A docstring
names the rule of spec/ that the statement formalises. Where a clause rests on a decision of the spec's
own (spec/92_eei_decisions.md) or on a choice of this model (notes/assumptions), the docstring says so. -/

open Sys2Proof Sys2Proof.Machine

/-! ### Encoding -/

/-- The words of R87, the seven legal ones with the operands R76 gives each command, and the seven
illegal ones it lists. The encoding is the spec's decision D2; the names of the illegal classes are the
model's (log entry 14). -/
def Obligations.CommandWordsDecodeAsTabled : Prop :=
  ∀ o : Operands,
    decode ⟨0x00000001, o⟩ = .ok (.create .msbFirst o.resHz o.times) ∧
    decode ⟨0x00000011, o⟩ = .ok (.create .lsbFirst o.resHz o.times) ∧
    decode ⟨0x00000021, o⟩ = .ok (.createRom .msbFirst o.resHz) ∧
    decode ⟨0x00000031, o⟩ = .ok (.createRom .lsbFirst o.resHz) ∧
    decode ⟨0x00000002, o⟩ = .ok (.encode o.data o.cap o.dest) ∧
    decode ⟨0x00000003, o⟩ = .ok .reset ∧
    decode ⟨0x00000004, o⟩ = .ok .dispose ∧
    decode ⟨0x00000000, o⟩ = .error .unassignedOpcode ∧
    decode ⟨0x00000005, o⟩ = .error .unassignedOpcode ∧
    decode ⟨0x0000000F, o⟩ = .error .unassignedOpcode ∧
    decode ⟨0x00000012, o⟩ = .error .fieldOutsideCreate ∧
    decode ⟨0x00000023, o⟩ = .error .fieldOutsideCreate ∧
    decode ⟨0x00000041, o⟩ = .error .reservedBits ∧
    decode ⟨0x80000002, o⟩ = .error .reservedBits

/-- The illegal words of R82, said by arithmetic on the number of the word: bits 31:6 not zero, or
`OP` none of 1 to 4, or `OP` one of 2 to 4 with bits 5:4 not zero. So exactly seven words are legal
(decision D25). -/
def Obligations.IllegalWordsAreExactlyTheReservedOnes : Prop :=
  ∀ c : Command,
    ((∃ e, decode c = .error e) ↔
      (c.word.toNat / 64 ≠ 0 ∨ c.word.toNat % 16 ∉ [1, 2, 3, 4] ∨
        (c.word.toNat % 16 ∈ [2, 3, 4] ∧ c.word.toNat / 16 % 4 ≠ 0))) ∧
    ((∃ i, decode c = .ok i) ↔ c.word.toNat ∈ [0x01, 0x11, 0x21, 0x31, 0x02, 0x03, 0x04])

/-- Decoding an encoded instruction gives it back with every operand, for every value of every operand;
and a word that decodes to an instruction is that instruction's own word, so no two words share a
meaning (R71, R81, R86). -/
def Obligations.DecodeInvertsEncode : Prop :=
  (∀ i : Instr, decode (encode i) = .ok i) ∧
  (∀ (c : Command) (i : Instr), decode c = .ok i → encodeWord i = c.word)

/-- Every line of the syntax of R85 is exactly one command (R86): its word is the one R87 tables, and it
decodes to the instruction with the operands the line gives, `order` being MSB first where it is left out
(decision D24). -/
def Obligations.AssembledLinesAreOneWord : Prop :=
  ∀ (dest : Memory) (res t0h t0l t1h t1l rst : Word) (data : List Byte) (cap : Nat),
    (assemble dest (.create res t0h t0l t1h t1l rst none)).word = 0x00000001 ∧
    (assemble dest (.create res t0h t0l t1h t1l rst (some .msbFirst))).word = 0x00000001 ∧
    (assemble dest (.create res t0h t0l t1h t1l rst (some .lsbFirst))).word = 0x00000011 ∧
    (assemble dest (.createRom res none)).word = 0x00000021 ∧
    (assemble dest (.createRom res (some .msbFirst))).word = 0x00000021 ∧
    (assemble dest (.createRom res (some .lsbFirst))).word = 0x00000031 ∧
    (assemble dest (.encode data cap)).word = 0x00000002 ∧
    (assemble dest .reset).word = 0x00000003 ∧
    (assemble dest .dispose).word = 0x00000004 ∧
    (∀ order : Option BitOrder,
      decode (assemble dest (.create res t0h t0l t1h t1l rst order)) =
        .ok (.create (order.getD .msbFirst) res ⟨t0h, t0l, t1h, t1l, rst⟩) ∧
      decode (assemble dest (.createRom res order)) =
        .ok (.createRom (order.getD .msbFirst) res)) ∧
    decode (assemble dest (.encode data cap)) = .ok (.encode data cap dest) ∧
    decode (assemble dest .reset) = .ok .reset ∧
    decode (assemble dest .dispose) = .ok .dispose

/-- The characters of a line (R85; decision D24): a comment says nothing, an underscore between digits is
ignored, `0x` makes a number hexadecimal, a number that does not fit its field is refused (R77), and each
form of line is read as its parts. How blanks may stand is the model's choice (log entry 17). -/
def Obligations.TextLinesReadAsTheirParts : Prop :=
  (∀ line comment : List Char, ';' ∉ line → readLine (line ++ ';' :: comment) = readLine line) ∧
  (∀ a b : List Char, a ≠ [] → b ≠ [] →
    readNumeral 10 (a ++ '_' :: b) = readNumeral 10 (a ++ b) ∧
    readNumeral 16 (a ++ '_' :: b) = readNumeral 16 (a ++ b)) ∧
  (∀ cs : List Char, readNumber ('0' :: 'x' :: cs) = readNumeral 16 cs) ∧
  (∀ (bits n : Nat) (cs : List Char), readNumber cs = some n →
    (2 ^ bits ≤ n → readField bits cs = none) ∧
    (n < 2 ^ bits → ∃ b, readField bits cs = some b ∧ b.toNat = n)) ∧
  readLine "create res=1_000_000, t0h=300_000, t0l=900_000, t1h=900_000, t1l=300_000, rst=50".toList =
    some (.create 1000000 300000 900000 900000 300000 50 none) ∧
  readLine "create.rom res=40_000_000, order=lsb".toList =
    some (.createRom 40000000 (some .lsbFirst)) ∧
  readLine "encode data=[0xFF,0x00], cap=9".toList = some (.encode [0xFF, 0x00] 9) ∧
  readLine "encode data=[] , cap=0".toList = some (.encode [] 0) ∧
  readLine "reset".toList = some .reset ∧
  readLine "dispose".toList = some .dispose

/-- The numeric codes of R80 (`STATUS`), R21 (`LIFECYCLE`), R22 (`PHASE`, `BIT_ORDER`) and R31 (levels). -/
def Obligations.CodesAreTabled : Prop :=
  (statusCode .ok = 0x00 ∧ statusCode .configErrorResZero = 0x01 ∧
    statusCode .configErrorTickOverflow = 0x02 ∧ statusCode .allocFailure = 0x03 ∧
    statusCode .illegalCommand = 0x04 ∧ statusCode .invalidHandle = 0x05 ∧
    statusCode .cursorOutOfRange = 0x06) ∧
  (lifecycleCode .uncreated = 0 ∧ lifecycleCode .created = 1 ∧ lifecycleCode .disposed = 2) ∧
  (phaseCode .data = 0 ∧ phaseCode .reset = 1) ∧
  (bitOrderCode .msbFirst = 0 ∧ bitOrderCode .lsbFirst = 1) ∧
  (levelCode .low = 0 ∧ levelCode .high = 1)

/-! ### The command port -/

/-- A step runs the decoded command (R70). What the step adds around `exec`: the command leaves the
port, and the draw that came with it is the one in force (the port and the draw are the model's own
fields, log entries 1 and 3). -/
def Obligations.StepExecutesTheDecodedCommand : Prop :=
  ∀ (s : State) (t : Transaction) (rest : List Transaction) (i : Instr),
    s.port = t :: rest → decode t.command = .ok i → i.wf s.config.w = true →
    step s = exec i { s with port := rest, allocOk := t.allocOk }

/-- With no command before it the block waits and nothing changes (R231: "It runs nothing on its own:
it waits for its first command"; that a wait is a step is the model's choice, log entry 1). -/
def Obligations.StepWaitsWithoutACommand : Prop :=
  ∀ s : State, s.port = [] → step s = .next s

/-- An illegal word raises ILLEGAL_COMMAND whatever the lifecycle state and whatever its operands, and
has no other effect (R82, R206, R209; decision D25). -/
def Obligations.IllegalWordRaisesIllegalCommand : Prop :=
  ∀ (s : State) (t : Transaction) (rest : List Transaction) (e : Illegal),
    s.port = t :: rest → decode t.command = .error e →
    step s = .next
      { s with
        port := rest
        allocOk := t.allocOk
        response := some ⟨.illegalCommand, 0, false, false⟩
        violations := s.violations ++ [.illegalCommand] }

/-- In a state that meets the invariant the machine never faults, and it stops only where a caller would
send an operand that R77 says cannot be expressed (the stop is the model's, log entry 6). So a read of an
unset register (R23) and a read outside DATA (R51, R132) are never issued. -/
def Obligations.StepStopsOnlyOnInexpressibleOperands : Prop :=
  ∀ s : State, Inv s →
    (∃ u, step s = .next u) ∨
    (∃ t rest i, s.port = t :: rest ∧ decode t.command = .ok i ∧ i.wf s.config.w = false ∧
      step s = .refused .operandNotExpressible)

/-! ### Power-on and invariants -/

/-- Power-on (R230, R23; decision D19). That the parameters stand in State with the defaults of R9 and
R30, `W = 32` among them (decision D5), is log entry 4; that the list of coming commands is empty is log
entry 1, and that the record of violations is empty is log entry 12, both the model's choice. -/
def Obligations.PowerOnState : Prop :=
  State.reset.regs.lifecycle = .uncreated ∧ State.reset.regs.phase = none ∧
  State.reset.regs.byteIndex = none ∧ State.reset.regs.bitIndex = none ∧
  State.reset.regs.bitOrder = none ∧ State.reset.regs.resHz = none ∧
  State.reset.regs.bit0High = none ∧ State.reset.regs.bit0Low = none ∧
  State.reset.regs.bit1High = none ∧ State.reset.regs.bit1Low = none ∧
  State.reset.regs.resetTicks = none ∧
  State.reset.config.w = 32 ∧
  State.reset.config.rom.t0hNs = 300 ∧ State.reset.config.rom.t0lNs = 900 ∧
  State.reset.config.rom.t1hNs = 900 ∧ State.reset.config.rom.t1lNs = 300 ∧
  State.reset.config.rom.resetUs = 50 ∧
  State.reset.port = [] ∧ State.reset.violations = []

/-- The power-on state meets the invariant. -/
def Obligations.PowerOnMeetsInvariant : Prop := Inv State.reset

/-- Every step keeps the invariant: registers 1 to 10 are set exactly while the instance is CREATED, the
cursor and timing bounds of R27 and R29 hold, DEST stays in canonical form, and the record of R209 holds
contract violations only. -/
def Obligations.StepKeepsInvariant : Prop :=
  ∀ s u : State, Inv s → step s = .next u → Inv u

/-- No step changes the parameters, the ROM among them (R30), and the record of contract violations only
grows: it is "never cleared" (R209). -/
def Obligations.StepKeepsParametersAndRecord : Prop :=
  ∀ s u : State, step s = .next u → u.config = s.config ∧ s.violations <+: u.violations

/-- A command adds its status to the record exactly when the status is one of the three contract
violations of R209; the configuration errors and ALLOC_FAILURE are not in it. -/
def Obligations.ViolationRecordIsExact : Prop :=
  ∀ (i : Instr) (s u : State), exec i s = .next u →
    ∃ r, u.response = some r ∧
      ((r.status ∈ [Status.illegalCommand, .invalidHandle, .cursorOutOfRange] ∧
          u.violations = s.violations ++ [r.status]) ∨
        (r.status ∈ [Status.ok, .configErrorResZero, .configErrorTickOverflow, .allocFailure] ∧
          u.violations = s.violations))

/-- The life stages (R21, R37, R173, R233): a command that changes LIFECYCLE is a CREATE that makes an
instance CREATED, or a DISPOSE that makes a CREATED one DISPOSED. Nothing returns to UNCREATED. -/
def Obligations.LifecycleMovesOnlyByCreateAndDispose : Prop :=
  ∀ (i : Instr) (s u : State), exec i s = .next u →
    u.regs.lifecycle = s.regs.lifecycle ∨
    (((∃ order res times, i = .create order res times) ∨ (∃ order res, i = .createRom order res)) ∧
      s.regs.lifecycle ≠ .created ∧ u.regs.lifecycle = .created) ∨
    (i = .dispose ∧ s.regs.lifecycle = .created ∧ u.regs.lifecycle = .disposed)

/-! ### CREATE and the timing derivation -/

/-- CREATE from its operands (R108 with `SRC = 0`): when the instance is not CREATED, the resolution is
not zero, the five counts fit in 32 bits and the draw is true, it sets every register and nothing else
(decisions D6, D7, D12, D13). -/
def Obligations.CreateFromOperandsConfigures : Prop :=
  ∀ (s : State) (order : BitOrder) (res : Word) (k : TimingConstants) (b0h b0l b1h b1l rst : Nat),
    s.regs.lifecycle ≠ .created → res ≠ 0 →
    b0h = k.t0hNs.toNat * res.toNat / 1000000000 → b0l = k.t0lNs.toNat * res.toNat / 1000000000 →
    b1h = k.t1hNs.toNat * res.toNat / 1000000000 → b1l = k.t1lNs.toNat * res.toNat / 1000000000 →
    rst = res.toNat / 1000000 * k.resetUs.toNat / 2 →
    b0h ≤ 2 ^ 32 - 1 → b0l ≤ 2 ^ 32 - 1 → b1h ≤ 2 ^ 32 - 1 → b1l ≤ 2 ^ 32 - 1 → rst ≤ 2 ^ 32 - 1 →
    AllocOk s →
    exec (.create order res k) s = .next
      { s with
        regs :=
          { lifecycle := .created, phase := some .data, byteIndex := some 0, bitIndex := some 0,
            bitOrder := some order, resHz := some res,
            bit0High := some (BitVec.ofNat 32 b0h), bit0Low := some (BitVec.ofNat 32 b0l),
            bit1High := some (BitVec.ofNat 32 b1h), bit1Low := some (BitVec.ofNat 32 b1l),
            resetTicks := some (BitVec.ofNat 32 rst) }
        response := some ⟨.ok, 0, false, false⟩ }

/-- CREATE from the timing-table ROM (R108 with `SRC = 1`), for whatever the five ROM words are (R10).
It has no timing operands to read (decision D9). -/
def Obligations.CreateFromRomConfigures : Prop :=
  ∀ (s : State) (order : BitOrder) (res : Word) (b0h b0l b1h b1l rst : Nat),
    s.regs.lifecycle ≠ .created → res ≠ 0 →
    b0h = s.config.rom.t0hNs.toNat * res.toNat / 1000000000 →
    b0l = s.config.rom.t0lNs.toNat * res.toNat / 1000000000 →
    b1h = s.config.rom.t1hNs.toNat * res.toNat / 1000000000 →
    b1l = s.config.rom.t1lNs.toNat * res.toNat / 1000000000 →
    rst = res.toNat / 1000000 * s.config.rom.resetUs.toNat / 2 →
    b0h ≤ 2 ^ 32 - 1 → b0l ≤ 2 ^ 32 - 1 → b1h ≤ 2 ^ 32 - 1 → b1l ≤ 2 ^ 32 - 1 → rst ≤ 2 ^ 32 - 1 →
    AllocOk s →
    exec (.createRom order res) s = .next
      { s with
        regs :=
          { lifecycle := .created, phase := some .data, byteIndex := some 0, bitIndex := some 0,
            bitOrder := some order, resHz := some res,
            bit0High := some (BitVec.ofNat 32 b0h), bit0Low := some (BitVec.ofNat 32 b0l),
            bit1High := some (BitVec.ofNat 32 b1h), bit1Low := some (BitVec.ofNat 32 b1l),
            resetTicks := some (BitVec.ofNat 32 rst) }
        response := some ⟨.ok, 0, false, false⟩ }

/-- The errors of both CREATE forms in the order of R210: INVALID_HANDLE, then CONFIG_ERROR_RES_ZERO,
then CONFIG_ERROR_TICK_OVERFLOW, then ALLOC_FAILURE. Each leaves the registers and DEST alone (decisions
D7, D12, D13, D21). -/
def Obligations.CreateErrorsComeInOrder : Prop :=
  ∀ (s : State) (i : Instr) (order : BitOrder) (res : Word) (k : TimingConstants),
    (i = .create order res k ∨ (i = .createRom order res ∧ k = s.config.rom)) →
    (s.regs.lifecycle = .created →
      exec i s = .next
        { s with
          response := some ⟨.invalidHandle, 0, false, false⟩
          violations := s.violations ++ [.invalidHandle] }) ∧
    (s.regs.lifecycle ≠ .created → res = 0 →
      exec i s = .next { s with response := some ⟨.configErrorResZero, 0, false, false⟩ }) ∧
    (s.regs.lifecycle ≠ .created → res ≠ 0 →
      (2 ^ 32 - 1 < k.t0hNs.toNat * res.toNat / 1000000000 ∨
        2 ^ 32 - 1 < k.t0lNs.toNat * res.toNat / 1000000000 ∨
        2 ^ 32 - 1 < k.t1hNs.toNat * res.toNat / 1000000000 ∨
        2 ^ 32 - 1 < k.t1lNs.toNat * res.toNat / 1000000000 ∨
        2 ^ 32 - 1 < res.toNat / 1000000 * k.resetUs.toNat / 2) →
      exec i s = .next { s with response := some ⟨.configErrorTickOverflow, 0, false, false⟩ }) ∧
    (s.regs.lifecycle ≠ .created → res ≠ 0 →
      k.t0hNs.toNat * res.toNat / 1000000000 ≤ 2 ^ 32 - 1 →
      k.t0lNs.toNat * res.toNat / 1000000000 ≤ 2 ^ 32 - 1 →
      k.t1hNs.toNat * res.toNat / 1000000000 ≤ 2 ^ 32 - 1 →
      k.t1lNs.toNat * res.toNat / 1000000000 ≤ 2 ^ 32 - 1 →
      res.toNat / 1000000 * k.resetUs.toNat / 2 ≤ 2 ^ 32 - 1 →
      s.allocOk = false →
      exec i s = .next { s with response := some ⟨.allocFailure, 0, false, false⟩ })

/-- R102: at resolution zero the derivation fails with CONFIG_ERROR_RES_ZERO, whatever the constants, so
also where a count would overflow: the check comes before any tick is computed. -/
def Obligations.ZeroResolutionFailsBeforeAnyTick : Prop :=
  ∀ k : TimingConstants, deriveTiming k 0 = .error .configErrorResZero

/-- R105: the reset count is `((res div 1_000_000) * rus) div 2`, each division truncated where it
stands. It is half the count that the formula of R103 gives when the resolution is a multiple of 10^6,
and it can differ when it is not. -/
def Obligations.ResetTicksFollowTheirOwnFormula : Prop :=
  (∀ (k : TimingConstants) (res : Word) (t : TimingConfig), deriveTiming k res = .ok t →
    t.resetTicks.toNat = res.toNat / 1000000 * k.resetUs.toNat / 2 ∧
    (res.toNat % 1000000 = 0 →
      t.resetTicks.toNat = 1000 * k.resetUs.toNat * res.toNat / 1000000000 / 2)) ∧
  (∃ (k : TimingConstants) (res : Word) (t : TimingConfig), deriveTiming k res = .ok t ∧
    res.toNat % 1000000 ≠ 0 ∧
    t.resetTicks.toNat ≠ 1000 * k.resetUs.toNat * res.toNat / 1000000000 / 2)

/-- R103, R104 and R106: the four bit counts are `(t_ns * res) div 10^9`, which for whole µs is
`(t_us * res) div 10^6`, and the derivation succeeds exactly when the resolution is not zero and all five
counts are at most `2^32 - 1`; a count of zero is no error (decisions D6, D7, D8). -/
def Obligations.BitTicksFollowTheTickFormula : Prop :=
  (∀ (k : TimingConstants) (res : Word) (t : TimingConfig), deriveTiming k res = .ok t →
    t.resHz = res ∧
    t.bit0.high.toNat = k.t0hNs.toNat * res.toNat / 1000000000 ∧
    t.bit0.low.toNat = k.t0lNs.toNat * res.toNat / 1000000000 ∧
    t.bit1.high.toNat = k.t1hNs.toNat * res.toNat / 1000000000 ∧
    t.bit1.low.toNat = k.t1lNs.toNat * res.toNat / 1000000000) ∧
  (∀ tUs res : Nat, tickCount (1000 * tUs) res = tUs * res / 1000000) ∧
  (∀ (k : TimingConstants) (res : Word), (∃ t, deriveTiming k res = .ok t) ↔
    (res ≠ 0 ∧ k.t0hNs.toNat * res.toNat / 1000000000 ≤ 2 ^ 32 - 1 ∧
      k.t0lNs.toNat * res.toNat / 1000000000 ≤ 2 ^ 32 - 1 ∧
      k.t1hNs.toNat * res.toNat / 1000000000 ≤ 2 ^ 32 - 1 ∧
      k.t1lNs.toNat * res.toNat / 1000000000 ≤ 2 ^ 32 - 1 ∧
      res.toNat / 1000000 * k.resetUs.toNat / 2 ≤ 2 ^ 32 - 1))

/-- The derived values of R113 for the default ROM, and the scenario timing of R114. -/
def Obligations.TimingsAreTabled : Prop :=
  deriveTiming Config.reference.rom 1000000 = .ok ⟨1000000, ⟨0, 0⟩, ⟨0, 0⟩, 25⟩ ∧
  deriveTiming Config.reference.rom 1500000 = .ok ⟨1500000, ⟨0, 1⟩, ⟨1, 0⟩, 25⟩ ∧
  deriveTiming Config.reference.rom 3000000 = .ok ⟨3000000, ⟨0, 2⟩, ⟨2, 0⟩, 75⟩ ∧
  deriveTiming Config.reference.rom 10000000 = .ok ⟨10000000, ⟨3, 9⟩, ⟨9, 3⟩, 250⟩ ∧
  deriveTiming Config.reference.rom 40000000 = .ok ⟨40000000, ⟨12, 36⟩, ⟨36, 12⟩, 1000⟩ ∧
  deriveTiming Config.reference.rom 800000 = .ok ⟨800000, ⟨0, 0⟩, ⟨0, 0⟩, 0⟩ ∧
  deriveTiming Config.reference.rom 4294967295 =
    .ok ⟨4294967295, ⟨1288, 3865⟩, ⟨3865, 1288⟩, 107350⟩ ∧
  deriveTiming ⟨300000, 900000, 900000, 300000, 50⟩ 1000000 =
    .ok ⟨1000000, ⟨300, 900⟩, ⟨900, 300⟩, 25⟩

/-! ### The converter and the emitter -/

/-- The count law of R130: from a cursor in range the converter never reads outside DATA (R132), emits
`min(cap, rem)` symbols, and moves the cursor by exactly that many bits. -/
def Obligations.ConverterCountLaw : Prop :=
  ∀ (order : BitOrder) (bit0 bit1 : PulseShape) (data : List Byte) (cap : Nat) (c : Cursor)
    (dest : Memory), cursorInRange c data.length = true →
    ∃ x, continueData order bit0 bit1 data cap c dest = .ok x ∧
      x.outcome.count = min cap (remainingBits data.length c) ∧
      (x.outcome.subComplete = true ↔ remainingBits data.length c ≤ cap) ∧
      (x.outcome.subFull = true ↔ cap < remainingBits data.length c) ∧
      bitPosition x.cursor = bitPosition c + x.outcome.count ∧
      cursorInRange x.cursor data.length = true

/-- The content law of R131, with R53 and R54: position `j` below the count holds the symbol of stream
bit `p + j`, and every other position is as it was. -/
def Obligations.ConverterContentLaw : Prop :=
  ∀ (order : BitOrder) (bit0 bit1 : PulseShape) (data : List Byte) (cap : Nat) (c : Cursor)
    (dest : Memory) (x : ConverterExit), cursorInRange c data.length = true →
    continueData order bit0 bit1 data cap c dest = .ok x →
    (∀ j, j < x.outcome.count →
      ∃ b, bitStream order data (bitPosition c + j) = some b ∧
        memRead j x.dest = some (dataSym bit0 bit1 b)) ∧
    (∀ j, x.outcome.count ≤ j → memRead j x.dest = memRead j dest) ∧
    (Memory.wf dest → Memory.wf x.dest)

/-- R125, R126 and R127: `sub_full` exactly when bits remain and no capacity does, the end of DATA being
tested first; `sub_complete` leaves `{L, 0}`; and DATA of length 0 is complete at once with nothing
emitted. -/
def Obligations.ConverterTestsTheEndFirst : Prop :=
  (∀ (order : BitOrder) (bit0 bit1 : PulseShape) (data : List Byte) (cap : Nat) (c : Cursor)
    (dest : Memory) (x : ConverterExit), cursorInRange c data.length = true →
    continueData order bit0 bit1 data cap c dest = .ok x →
    (x.outcome.subFull = true ↔
      x.cursor.byteIndex < data.length ∧ cap - x.outcome.count = 0) ∧
    (x.outcome.subComplete = true ↔ x.cursor.byteIndex = data.length) ∧
    (x.outcome.subComplete = true → x.cursor = ⟨data.length, 0⟩)) ∧
  (∀ (order : BitOrder) (bit0 bit1 : PulseShape) (cap : Nat) (dest : Memory),
    continueData order bit0 bit1 [] cap ⟨0, 0⟩ dest = .ok ⟨⟨0, 0⟩, dest, ⟨0, true, false⟩⟩)

/-- R57: the eight bits of a byte in the order they are consumed, for both orders, and the LSB-first
order is the reverse of the MSB-first one (decision D11). -/
def Obligations.BitOrdersMirrorEachOther : Prop :=
  (∀ (order : BitOrder) (b : Byte), (List.finRange 8).map (bitOf order b) = byteBits order b) ∧
  (∀ b : Byte, byteBits .lsbFirst b = (byteBits .msbFirst b).reverse)

/-- The symbols of R32 and R33, and the total low time of the reset symbol in R143, `2 * RESET_TICKS`: it
is the reset duration in whole ticks, `(res * rus) div 10^6`, less what the two divisions of R105 truncate,
the one of `res` by 10^6 and the halving (decision D10). -/
def Obligations.SymbolShapes : Prop :=
  (∀ bit0 bit1 : PulseShape,
    dataSym bit0 bit1 false = ⟨.high, bit0.high, .low, bit0.low⟩ ∧
    dataSym bit0 bit1 true = ⟨.high, bit1.high, .low, bit1.low⟩) ∧
  (∀ ticks : Tick, resetSym ticks = ⟨.low, ticks, .low, ticks⟩ ∧
    (resetSym ticks).durationHigh.toNat + (resetSym ticks).durationLow.toNat = 2 * ticks.toNat) ∧
  (∀ (k : TimingConstants) (res : Word) (t : TimingConfig), deriveTiming k res = .ok t →
    (resetSym t.resetTicks).durationHigh.toNat + (resetSym t.resetTicks).durationLow.toNat +
      res.toNat / 1000000 * k.resetUs.toNat % 2 +
      res.toNat % 1000000 * k.resetUs.toNat / 1000000 = res.toNat * k.resetUs.toNat / 1000000)

/-- The emitter (R141, R145): nothing without capacity, and otherwise exactly one reset symbol at
position `p`, with every other position as it was. -/
def Obligations.EmitterEmitsAtMostOneSymbol : Prop :=
  ∀ (ticks : Tick) (cap p : Nat) (dest : Memory),
    (cap = 0 → continueReset ticks cap p dest = ⟨dest, ⟨0, false, true⟩⟩) ∧
    (1 ≤ cap →
      (continueReset ticks cap p dest).outcome = ⟨1, true, false⟩ ∧
      memRead p (continueReset ticks cap p dest).dest = some ⟨.low, ticks, .low, ticks⟩ ∧
      (∀ j, j ≠ p → memRead j (continueReset ticks cap p dest).dest = memRead j dest))

/-! ### ENCODE -/

/-- R156: fewer units of capacity than bits remaining. ENCODE returns `BUFFER_FULL` with `WRITTEN` all of
the capacity, the phase stays DATA, the cursor points at the next unconsumed bit, and nothing else in the
state changes but DEST positions below `WRITTEN`. -/
def Obligations.EncodeStopsWhenCapacityRunsOut : Prop :=
  ∀ (s : State) (v : Held) (data : List Byte) (cap : Nat) (dest : Memory),
    s.regs = heldRegisters v → v.phase = .data → cursorInRange v.cursor data.length = true →
    cap < remainingBits data.length v.cursor →
    ∃ m, exec (.encode data cap dest) s = .next
        { s with
          regs := heldRegisters { v with cursor := cursorAt (bitPosition v.cursor + cap) }
          response := some ⟨.ok, cap, false, true⟩
          dest := m } ∧
      (∀ j, memRead j m =
        if j < cap then streamSym v data (bitPosition v.cursor + j) else memRead j dest)

/-- R158, the boundary: capacity and bits run out together. ENCODE returns `BUFFER_FULL` with the cursor
`{RESET, L, 0}`, and emits no reset symbol. -/
def Obligations.EncodeStopsAtTheBoundary : Prop :=
  ∀ (s : State) (v : Held) (data : List Byte) (cap : Nat) (dest : Memory),
    s.regs = heldRegisters v → v.phase = .data → cursorInRange v.cursor data.length = true →
    cap = remainingBits data.length v.cursor →
    ∃ m, exec (.encode data cap dest) s = .next
        { s with
          regs := heldRegisters { v with phase := .reset, cursor := ⟨data.length, 0⟩ }
          response := some ⟨.ok, cap, false, true⟩
          dest := m } ∧
      (∀ j, memRead j m =
        if j < cap then streamSym v data (bitPosition v.cursor + j) else memRead j dest)

/-- R161: whenever the emitter completes, ENCODE sets the cursor to `{DATA, 0, 0}` and returns
`COMPLETE`. Either the command fell through from DATA with capacity to spare, and the reset symbol
follows its last data symbol; or it began in RESET with capacity, whatever DATA it brings. -/
def Obligations.EncodeCompletesTheFrame : Prop :=
  ∀ (s : State) (v : Held) (data : List Byte) (cap : Nat) (dest : Memory),
    s.regs = heldRegisters v →
    (v.phase = .data → cursorInRange v.cursor data.length = true →
      remainingBits data.length v.cursor < cap →
      ∃ m, exec (.encode data cap dest) s = .next
          { s with
            regs := heldRegisters { v with phase := .data, cursor := ⟨0, 0⟩ }
            response := some ⟨.ok, remainingBits data.length v.cursor + 1, true, false⟩
            dest := m } ∧
        (∀ j, memRead j m =
          if j < remainingBits data.length v.cursor then
            streamSym v data (bitPosition v.cursor + j)
          else if j = remainingBits data.length v.cursor then
            some ⟨.low, v.timing.resetTicks, .low, v.timing.resetTicks⟩
          else memRead j dest)) ∧
    (v.phase = .reset → 1 ≤ cap →
      ∃ m, exec (.encode data cap dest) s = .next
          { s with
            regs := heldRegisters { v with phase := .data, cursor := ⟨0, 0⟩ }
            response := some ⟨.ok, 1, true, false⟩
            dest := m } ∧
        (∀ j, memRead j m =
          if j = 0 then some ⟨.low, v.timing.resetTicks, .low, v.timing.resetTicks⟩
          else memRead j dest))

/-- R142: in RESET with no capacity ENCODE returns `BUFFER_FULL` with nothing written and the cursor
unchanged; the phase stays RESET and DEST is as the caller brought it. -/
def Obligations.EncodeInResetNeedsCapacity : Prop :=
  ∀ (s : State) (v : Held) (data : List Byte) (dest : Memory),
    s.regs = heldRegisters v → v.phase = .reset →
    exec (.encode data 0 dest) s = .next
      { s with response := some ⟨.ok, 0, false, true⟩, dest := dest }

/-- R166: a cursor outside the DATA supplied raises CURSOR_OUT_OF_RANGE in phase DATA, with no effect;
in phase RESET the check is not made (decision D14). -/
def Obligations.EncodeRefusesACursorOutsideData : Prop :=
  ∀ (s : State) (v : Held) (data : List Byte) (cap : Nat) (dest : Memory),
    s.regs = heldRegisters v →
    (v.phase = .data →
      ¬(v.cursor.byteIndex < data.length ∨
        (v.cursor.byteIndex = data.length ∧ v.cursor.bitIndex = 0)) →
      exec (.encode data cap dest) s = .next
        { s with
          response := some ⟨.cursorOutOfRange, 0, false, false⟩
          dest := dest
          violations := s.violations ++ [.cursorOutOfRange] }) ∧
    (v.phase = .reset →
      ∃ u r, exec (.encode data cap dest) s = .next u ∧ u.response = some r ∧ r.status = .ok)

/-- "A read of an unset register is a model fault" (R23; decision D19), register by register in the order
ENCODE reads them, the RESET_TICKS of an ENCODE that falls through from DATA last. The order, that a
call in DATA reads BIT_ORDER and the four shape registers also where it emits no bit (R122 reads none
there), and that a call in RESET reads RESET_TICKS also with `CAP = 0` (R141 and R142 return before it is
read), are the model's choice (log entry 5, DEDUCED). Only a state that breaks the invariant has a CREATED
instance with an unset register. -/
def Obligations.UnsetRegisterReadIsAFault : Prop :=
  ∀ (s : State) (data : List Byte) (cap : Nat) (dest : Memory), s.regs.lifecycle = .created →
    (s.regs.phase = none →
      exec (.encode data cap dest) s = .fault (.unsetRegister .phase)) ∧
    (s.regs.phase = some .reset → s.regs.resetTicks = none →
      exec (.encode data cap dest) s = .fault (.unsetRegister .resetTicks)) ∧
    (s.regs.phase = some .data → s.regs.byteIndex = none →
      exec (.encode data cap dest) s = .fault (.unsetRegister .byteIndex)) ∧
    (∀ b, s.regs.phase = some .data → s.regs.byteIndex = some b → s.regs.bitIndex = none →
      exec (.encode data cap dest) s = .fault (.unsetRegister .bitIndex)) ∧
    (∀ b i, s.regs.phase = some .data → s.regs.byteIndex = some b → s.regs.bitIndex = some i →
      cursorInRange ⟨b, i⟩ data.length = true → s.regs.bitOrder = none →
      exec (.encode data cap dest) s = .fault (.unsetRegister .bitOrder)) ∧
    (∀ b i, s.regs.phase = some .data → s.regs.byteIndex = some b → s.regs.bitIndex = some i →
      cursorInRange ⟨b, i⟩ data.length = true → s.regs.bitOrder ≠ none →
      (s.regs.bit0High = none ∨ s.regs.bit0Low = none ∨ s.regs.bit1High = none ∨
        s.regs.bit1Low = none) →
      ∃ r ∈ [RegId.bit0High, .bit0Low, .bit1High, .bit1Low],
        exec (.encode data cap dest) s = .fault (.unsetRegister r)) ∧
    (∀ b i, s.regs.phase = some .data → s.regs.byteIndex = some b → s.regs.bitIndex = some i →
      cursorInRange ⟨b, i⟩ data.length = true → s.regs.bitOrder ≠ none →
      s.regs.bit0High ≠ none → s.regs.bit0Low ≠ none → s.regs.bit1High ≠ none →
      s.regs.bit1Low ≠ none → s.regs.resetTicks = none →
      (remainingBits data.length ⟨b, i⟩ < cap →
        exec (.encode data cap dest) s = .fault (.unsetRegister .resetTicks)) ∧
      (cap ≤ remainingBits data.length ⟨b, i⟩ → ∃ u, exec (.encode data cap dest) s = .next u))

/-- The closed form of R168 with the symbols owed of R167. -/
def Obligations.EncodeClosedForm : Prop :=
  ∀ (s : State) (v : Held) (data : List Byte) (cap : Nat) (dest : Memory),
    s.regs = heldRegisters v → encodeInRange data.length v →
    ∃ u r, exec (.encode data cap dest) s = .next u ∧ u.response = some r ∧
      r.status = .ok ∧ r.written = min cap (owed data.length v) ∧
      (r.complete = true ↔ owed data.length v ≤ cap) ∧
      (r.bufferFull = true ↔ cap < owed data.length v) ∧
      (r.bufferFull = true → ∃ v', u.regs = heldRegisters v' ∧ encodeInRange data.length v' ∧
        owed data.length v' = owed data.length v - cap) ∧
      (r.complete = true →
        u.regs = heldRegisters { v with phase := .data, cursor := ⟨0, 0⟩ })

/-- Capacity exactness and exclusive flags (R163, R175), for every state: an OK ENCODE writes at most
`CAP` symbols, sets exactly one of its two flags, and with `BUFFER_FULL` has written exactly `CAP`. -/
def Obligations.EncodeIsCapacityExact : Prop :=
  ∀ (s u : State) (data : List Byte) (cap : Nat) (dest : Memory) (r : Response),
    exec (.encode data cap dest) s = .next u → u.response = some r → r.status = .ok →
    r.written ≤ cap ∧ r.complete = !r.bufferFull ∧ (r.bufferFull = true → r.written = cap)

/-- The frame of ENCODE, for every state: of the registers only the cursor can change (R24, R28), the
parameters, the port and the draw stay, and every DEST position at or beyond `WRITTEN` reads as it did in
the DEST the command brought (R54). -/
def Obligations.EncodeFrame : Prop :=
  ∀ (s u : State) (data : List Byte) (cap : Nat) (dest : Memory),
    exec (.encode data cap dest) s = .next u →
    u.regs = { s.regs with
      phase := u.regs.phase, byteIndex := u.regs.byteIndex, bitIndex := u.regs.bitIndex } ∧
    u.config = s.config ∧ u.port = s.port ∧ u.allocOk = s.allocOk ∧
    ∃ r, u.response = some r ∧ ∀ j, r.written ≤ j → memRead j u.dest = memRead j dest

/-- The empty frame of R177: one reset symbol and `COMPLETE` with capacity, and without it nothing
written, `BUFFER_FULL` and phase RESET. -/
def Obligations.EmptyFrameIsOneResetSymbol : Prop :=
  ∀ (s : State) (v : Held) (cap : Nat) (dest : Memory),
    s.regs = heldRegisters v → Fresh v →
    (1 ≤ cap →
      ∃ m, exec (.encode [] cap dest) s = .next
          { s with response := some ⟨.ok, 1, true, false⟩, dest := m } ∧
        memRead 0 m = some ⟨.low, v.timing.resetTicks, .low, v.timing.resetTicks⟩ ∧
        (∀ j, j ≠ 0 → memRead j m = memRead j dest)) ∧
    (cap = 0 →
      exec (.encode [] cap dest) s = .next
        { s with
          regs := heldRegisters { v with phase := .reset }
          response := some ⟨.ok, 0, false, true⟩
          dest := dest })

/-- In phase RESET neither DATA (R52, R144) nor `BYTE_INDEX` and `BIT_INDEX` (R26) have any influence:
the response and DEST are the same, and with capacity the registers too (decisions D17, D32). -/
def Obligations.ResetPhaseReadsNoDataAndNoCursor : Prop :=
  ∀ (s u : State) (v : Held) (c : Cursor) (data data' : List Byte) (cap : Nat) (dest : Memory),
    s.regs = heldRegisters v → v.phase = .reset →
    exec (.encode data cap dest) s = .next u →
    ∃ u', exec (.encode data' cap dest) { s with regs := heldRegisters { v with cursor := c } } =
        .next u' ∧
      u'.response = u.response ∧ u'.dest = u.dest ∧ (1 ≤ cap → u'.regs = u.regs)

/-! ### RESET, DISPOSE and the lifecycle -/

/-- ENCODE, RESET and DISPOSE raise INVALID_HANDLE on an instance that is not CREATED, before any other
check and with no effect (R205, R210, R231; decision D12). -/
def Obligations.NotCreatedRaisesInvalidHandle : Prop :=
  ∀ (s : State) (data : List Byte) (cap : Nat) (dest : Memory), s.regs.lifecycle ≠ .created →
    exec (.encode data cap dest) s = .next
      { s with
        response := some ⟨.invalidHandle, 0, false, false⟩
        dest := dest
        violations := s.violations ++ [.invalidHandle] } ∧
    exec .reset s = .next
      { s with
        response := some ⟨.invalidHandle, 0, false, false⟩
        violations := s.violations ++ [.invalidHandle] } ∧
    exec .dispose s = .next
      { s with
        response := some ⟨.invalidHandle, 0, false, false⟩
        violations := s.violations ++ [.invalidHandle] }

/-- RESET of a CREATED instance, from any cursor: the cursor is `{DATA, 0, 0}`, and the timing, the bit
order, LIFECYCLE, DEST and all else stay (R170, R233). -/
def Obligations.ResetReturnsTheCursorToItsStart : Prop :=
  ∀ s : State, s.regs.lifecycle = .created →
    exec .reset s = .next
      { s with
        regs := { s.regs with phase := some .data, byteIndex := some 0, bitIndex := some 0 }
        response := some ⟨.ok, 0, false, false⟩ }

/-- DISPOSE of a CREATED instance, from any cursor: registers 1 to 10 unset and LIFECYCLE DISPOSED, with
no symbol written (R172; decision D27). -/
def Obligations.DisposeUnsetsEveryRegister : Prop :=
  ∀ s : State, s.regs.lifecycle = .created →
    exec .dispose s = .next
      { s with
        regs :=
          { lifecycle := .disposed, phase := none, byteIndex := none, bitIndex := none,
            bitOrder := none, resHz := none, bit0High := none, bit0Low := none,
            bit1High := none, bit1Low := none, resetTicks := none }
        response := some ⟨.ok, 0, false, false⟩ }

/-- A command that raises an error changes no register and no DEST position, and its response carries the
status and zeros (R14, R200, R201, R211; decision D4). -/
def Obligations.RaisedCommandsChangeNothing : Prop :=
  ∀ (i : Instr) (s u : State) (r : Response),
    exec i s = .next u → u.response = some r → r.status ≠ .ok →
    u.regs = s.regs ∧ u.config = s.config ∧ u.port = s.port ∧ u.allocOk = s.allocOk ∧
    r = ⟨r.status, 0, false, false⟩ ∧
    (∀ data cap dest, i = .encode data cap dest → u.dest = dest) ∧
    ((∀ data cap dest, i ≠ .encode data cap dest) → u.dest = s.dest)

/-- Only ENCODE has a DEST (R50, R52): every other command leaves the last one alone, and no command
touches the parameters, the port or the draw. -/
def Obligations.OnlyEncodeTouchesDest : Prop :=
  ∀ (i : Instr) (s u : State), exec i s = .next u →
    u.config = s.config ∧ u.port = s.port ∧ u.allocOk = s.allocOk ∧
    ((∀ data cap dest, i ≠ .encode data cap dest) → u.dest = s.dest)

/-- After DISPOSE the instance takes only CREATE (R173, R241): the three other commands raise
INVALID_HANDLE, and a CREATE of either form that passes its checks starts a new lifetime. -/
def Obligations.DisposedInstanceTakesOnlyCreate : Prop :=
  ∀ (s u : State) (data : List Byte) (cap : Nat) (dest : Memory) (order : BitOrder) (res : Word)
    (k : TimingConstants), s.regs.lifecycle = .created → exec .dispose s = .next u →
    (∀ i ∈ [Instr.encode data cap dest, .reset, .dispose],
      ∃ w, exec i u = .next w ∧ w.response = some ⟨.invalidHandle, 0, false, false⟩ ∧
        w.regs = u.regs) ∧
    ((∃ t, deriveTiming k res = .ok t) → AllocOk u →
      ∀ i, (i = .create order res k ∨ (i = .createRom order res ∧ k = u.config.rom)) →
        ∃ w v, exec i u = .next w ∧ w.regs = heldRegisters v ∧ Fresh v)

/-- What a command depends on (R34, R36, R53): the registers and the response it leaves are determined by
the registers (the cursor and the TimingConfig, which R35 calls hidden state, among them), the parameters,
the draw and the operands. The last response, the record, the port and the contents of DEST are read by
no command: with any other DEST an ENCODE writes the same symbols at the same positions. -/
def Obligations.CommandsDependOnRegistersParametersDrawAndOperands : Prop :=
  ∀ s t : State, s.regs = t.regs → s.config = t.config → s.allocOk = t.allocOk →
    (∀ i u, exec i s = .next u →
      ∃ u', exec i t = .next u' ∧ u'.regs = u.regs ∧ u'.response = u.response) ∧
    (∀ data cap dest dest' u r, exec (.encode data cap dest) s = .next u → u.response = some r →
      ∃ u', exec (.encode data cap dest') t = .next u' ∧ u'.regs = u.regs ∧
        u'.response = some r ∧ ∀ j, j < r.written → memRead j u'.dest = memRead j u.dest)

/-! ### Sequences of commands -/

/-- Bit completeness, R174: under `Fresh`, `SameData`, `PositiveCap` and `EnoughCap`, whatever the DEST
of each call, the frame put out is one symbol for each bit of DATA, each bit exactly once and in the
configured order, and then the reset symbol; the instance is fresh again (R176), and no contract
violation was returned on the way. -/
def Obligations.FrameIsBitComplete : Prop :=
  ∀ (s : State) (v : Held) (data : List Byte) (calls : List Call),
    s.regs = heldRegisters v → Fresh v → SameData data calls → PositiveCap calls →
    EnoughCap data calls →
    ∃ u, frameOutput calls s = some (frameSymbols v data, u) ∧ u.regs = heldRegisters v ∧
      (NoViolation s → NoViolation u)

/-- Progress, R169: with a constant capacity `k ≥ 1` and unchanged DATA a fresh frame completes in
exactly `ceil((8L + 1) / k)` calls: that many calls complete it, and no fewer do. -/
def Obligations.FrameCompletesInCeilingCalls : Prop :=
  ∀ (s : State) (v : Held) (data : List Byte) (k : Nat) (calls : List Call),
    s.regs = heldRegisters v → Fresh v → SameData data calls → 1 ≤ k →
    (∀ c ∈ calls, c.cap = k) →
    ((frameOutput calls s).isSome = true ↔ (8 * data.length + 1 + (k - 1)) / k ≤ calls.length)

/-- The decoding half of R174 (R247): under `Decodable`, two frames from the same registers that put out
the same symbols carried the same DATA, whatever their capacities. -/
def Obligations.FramesDecodeBackToTheirData : Prop :=
  ∀ (s t : State) (v : Held) (data data' : List Byte) (calls calls' : List Call)
    (out : List PulseSymbol) (u w : State),
    s.regs = heldRegisters v → t.regs = heldRegisters v → Fresh v → Decodable v →
    SameData data calls → SameData data' calls' →
    frameOutput calls s = some (out, u) → frameOutput calls' t = some (out, w) →
    data = data'

/-- Reset idempotence, R178: after an OK CREATE and any commands but DISPOSE, RESET brings the registers
back to exactly what the CREATE left. -/
def Obligations.ResetEqualsAFreshCreate : Prop :=
  ∀ (s s1 s2 : State) (i : Instr) (commands : List Instr),
    ((∃ order res times, i = .create order res times) ∨ (∃ order res, i = .createRom order res)) →
    exec i s = .next s1 → s1.response = some ⟨.ok, 0, false, false⟩ →
    .dispose ∉ commands → execAll commands s1 = .next s2 →
    ∃ s3, exec .reset s2 = .next s3 ∧ s3.response = some ⟨.ok, 0, false, false⟩ ∧
      s3.regs = s1.regs

/-! ### Frames of a run (R244), and the step under R178 -/

/-- R244 (decision D30) as an invariant of every run: from a log of frames that are data symbols, with one
reset symbol after them exactly if the frame ended, each step keeps it so, whatever the state and whatever
DATA each call brings. A frame cut short carries no reset symbol. The log stands beside the run (log
entry 18). -/
def Obligations.StepKeepsFramesWellFormed : Prop :=
  FrameLog.empty.WellFormed ∧
  (∀ (s u : State) (g : FrameLog), g.WellFormed → step s = .next u → (g.step s u).WellFormed)

/-- What bounds a frame in R244 (R171; decision D30): a RESET or a DISPOSE of a CREATED instance, and a
CREATE that succeeds, close the open frame as cut short; a command that raises an error adds nothing to a
frame and bounds none (log entry 18), also in a sequence of ENCODE calls. -/
def Obligations.FramesAreBoundedByTheCommandsThatRun : Prop :=
  (∀ (s : State) (t : Transaction) (rest : List Transaction) (i : Instr) (g : FrameLog),
    s.port = t :: rest → decode t.command = .ok i → (i = .reset ∨ i = .dispose) →
    s.regs.lifecycle = .created →
    ∃ u, step s = .next u ∧ (g.step s u).current = none ∧
      (g.step s u).frames = g.frames ++ (g.current.map fun out => (⟨out, false⟩ : Frame)).toList) ∧
  (∀ (s u : State) (t : Transaction) (rest : List Transaction) (i : Instr) (g : FrameLog),
    s.port = t :: rest → decode t.command = .ok i →
    ((∃ order res times, i = .create order res times) ∨ (∃ order res, i = .createRom order res)) →
    step s = .next u → u.response = some ⟨.ok, 0, false, false⟩ →
    (g.step s u).current = none ∧
      (g.step s u).frames = g.frames ++ (g.current.map fun out => (⟨out, false⟩ : Frame)).toList) ∧
  (∀ (s u : State) (t : Transaction) (rest : List Transaction) (r : Response) (g : FrameLog),
    s.port = t :: rest → step s = .next u → u.response = some r → r.status ≠ .ok →
    g.step s u = g ∧ u.regs = s.regs) ∧
  (∀ (s u : State) (k : Call) (rest : List Call) (r : Response),
    exec (.encode k.data k.cap k.dest) s = .next u → u.response = some r → r.status ≠ .ok →
    frameOutput (k :: rest) s = frameOutput rest u ∧ u.regs = s.regs)

/-- Bit completeness on the port, R174 with the frames of R244: whatever illegal words and CREATE commands
(which raise INVALID_HANDLE) stand between the ENCODE calls of one DATA, the first frame that the run ends
is the whole frame, as soon as the capacities suffice, and nothing of it is lost or repeated. That a CREATE
raised in mid-frame neither bounds a frame nor adds to it is the model's choice, on which this statement
rests (log entry 18, DEDUCED): R244 says CREATE without a word on raised ones. -/
def Obligations.FrameIsBitCompleteAmongRaisedCommands : Prop :=
  ∀ (s : State) (v : Held) (data : List Byte), s.regs = heldRegisters v → Fresh v →
    (∀ t ∈ s.port,
      (∃ e, decode t.command = .error e) ∨
      (∃ order res times, decode t.command = .ok (.create order res times)) ∨
      (∃ order res, decode t.command = .ok (.createRom order res)) ∨
      (∃ cap dest, decode t.command = .ok (.encode data cap dest) ∧
        (Instr.encode data cap dest).wf s.config.w = true)) →
    8 * data.length + 1 ≤ (s.port.map broughtCap).sum →
    ∃ n u, n ≤ s.port.length ∧
      runFrames n s FrameLog.empty = some (u, ⟨[⟨frameSymbols v data, true⟩], none⟩) ∧
      u.regs = heldRegisters v

/-- The step under R178, from R28, R110 and R233: as long as no DISPOSE comes, a step of a CREATED instance
changes no register but the cursor, whatever the command and its operands; a DISPOSE unsets them (R172). -/
def Obligations.StepKeepsTheConfigurationUntilDispose : Prop :=
  ∀ (s u : State) (v : Held), s.regs = heldRegisters v → step s = .next u →
    (∃ p c, u.regs = heldRegisters { v with phase := p, cursor := c }) ∨
    (u.regs = unsetRegisters .disposed ∧
      ∃ t rest, s.port = t :: rest ∧ decode t.command = .ok .dispose)
end

