-- ==== Sys2Proof/Laws/Memory.lean ====
section
/-! SUPPORT. The laws of the destination space: a read after a write, other positions untouched, and
the canonical form kept. -/

namespace Sys2Proof.Machine

@[simp] theorem memRead_nil (j : Nat) : memRead j [] = none := rfl

/-- A read after a write at the same position gives the symbol written. -/
@[simp] theorem memRead_memWrite_same (j : Nat) (sym : PulseSymbol) (m : Memory) :
    memRead j (memWrite j sym m) = some sym := by
  induction m with
  | nil => simp [memWrite, memRead]
  | cons cell rest ih =>
    obtain ⟨k, old⟩ := cell
    simp only [memWrite]
    split
    · simp [memRead]
    · split
      · simp [memRead]
      · rw [memRead, if_neg (by omega), ih]

/-- A write leaves every other position alone. -/
theorem memRead_memWrite_other {j k : Nat} (sym : PulseSymbol) (m : Memory) (h : j ≠ k) :
    memRead j (memWrite k sym m) = memRead j m := by
  induction m with
  | nil => simp [memWrite, memRead, Ne.symm h]
  | cons cell rest ih =>
    obtain ⟨a, old⟩ := cell
    simp only [memWrite]
    split
    · simp [memRead, Ne.symm h]
    · split
      · next h1 h2 => subst h2; simp [memRead, Ne.symm h]
      · simp only [memRead, ih]

theorem memRead_memWrite (j k : Nat) (sym : PulseSymbol) (m : Memory) :
    memRead j (memWrite k sym m) = if j = k then some sym else memRead j m := by
  split
  · next h => subst h; exact memRead_memWrite_same j sym m
  · next h => exact memRead_memWrite_other sym m h

/-- A position of a written space is the one written or was there before. -/
theorem mem_memWrite {j : Nat} {sym : PulseSymbol} {m : Memory} {cell : Nat × PulseSymbol}
    (h : cell ∈ memWrite j sym m) : cell = (j, sym) ∨ cell ∈ m := by
  induction m with
  | nil => simpa [memWrite] using h
  | cons head rest ih =>
    obtain ⟨k, old⟩ := head
    simp only [memWrite] at h
    split at h
    · simpa using h
    · split at h
      · rcases List.mem_cons.mp h with h | h
        · exact .inl h
        · exact .inr (List.mem_cons_of_mem _ h)
      · rcases List.mem_cons.mp h with h | h
        · exact .inr (h ▸ List.mem_cons_self)
        · exact (ih h).imp id (List.mem_cons_of_mem _)

/-- A write keeps the canonical form. -/
theorem memWrite_wf (j : Nat) (sym : PulseSymbol) {m : Memory} (h : Memory.wf m) :
    Memory.wf (memWrite j sym m) := by
  induction m with
  | nil => simp [memWrite, Memory.wf]
  | cons head rest ih =>
    obtain ⟨k, old⟩ := head
    obtain ⟨hk, hrest⟩ := List.pairwise_cons.mp h
    simp only [memWrite]
    split
    · next hj =>
      refine List.pairwise_cons.mpr ⟨fun cell hc => ?_, h⟩
      rcases List.mem_cons.mp hc with rfl | hc
      · exact hj
      · exact lt_trans hj (hk cell hc)
    · split
      · next hj => subst hj; exact List.pairwise_cons.mpr ⟨hk, hrest⟩
      · next h1 h2 =>
        refine List.pairwise_cons.mpr ⟨fun cell hc => ?_, ih hrest⟩
        rcases mem_memWrite hc with rfl | hc
        · show k < j; omega
        · exact hk cell hc

/-- The reset state's destination space is in canonical form. -/
theorem reset_dest_wf : Memory.wf State.reset.dest := List.Pairwise.nil

/-- Two spaces in canonical form that read alike at every position are equal. -/
theorem memory_ext {m m' : Memory} (h : Memory.wf m) (h' : Memory.wf m')
    (heq : ∀ j, memRead j m = memRead j m') : m = m' := by
  have read_lt : ∀ {n : Memory} {k : Nat}, (∀ cell ∈ n, k < cell.1) → memRead k n = none := by
    intro n k hn
    induction n with
    | nil => rfl
    | cons cell rest ih =>
      have := hn cell List.mem_cons_self
      rw [memRead, if_neg (by omega)]
      exact ih fun d hd => hn d (List.mem_cons_of_mem _ hd)
  induction m generalizing m' with
  | nil =>
    cases m' with
    | nil => rfl
    | cons cell rest => simpa [memRead] using heq cell.1
  | cons cell rest ih =>
    cases m' with
    | nil => simpa [memRead] using heq cell.1
    | cons cell' rest' =>
      obtain ⟨k, a⟩ := cell
      obtain ⟨k', a'⟩ := cell'
      obtain ⟨hk, hrest⟩ := List.pairwise_cons.mp h
      obtain ⟨hk', hrest'⟩ := List.pairwise_cons.mp h'
      have hkk : k = k' := by
        rcases Nat.lt_trichotomy k k' with hlt | heq' | hgt
        · have := heq k
          rw [memRead, if_pos rfl, memRead, if_neg (by omega),
            read_lt fun d hd => lt_trans hlt (hk' d hd)] at this
          cases this
        · exact heq'
        · have := heq k'
          rw [memRead, if_neg (by omega), memRead, if_pos rfl,
            read_lt fun d hd => lt_trans hgt (hk d hd)] at this
          cases this
      subst hkk
      have ha := heq k
      simp only [memRead, if_pos] at ha
      cases ha
      rw [ih hrest hrest' fun j => ?_]
      by_cases hj : k = j
      · subst hj; rw [read_lt hk, read_lt hk']
      · simpa [memRead, hj] using heq j

/-! ### The symbols written, as a list -/

@[simp] theorem writtenSymbols_zero (m : Memory) : writtenSymbols 0 m = [] := rfl

theorem mem_writtenSymbols {n : Nat} {m : Memory} {x : PulseSymbol} :
    x ∈ writtenSymbols n m ↔ ∃ j, j < n ∧ memRead j m = some x := by
  simp [writtenSymbols, List.mem_filterMap]

/-- The symbols written depend on the positions below the count only. -/
theorem writtenSymbols_congr {n : Nat} {m m' : Memory}
    (h : ∀ j, j < n → memRead j m = memRead j m') : writtenSymbols n m = writtenSymbols n m' :=
  List.filterMap_congr fun j hj => h j (List.mem_range.mp hj)

/-- A symbol stored at the count is the last of the symbols written. -/
theorem writtenSymbols_memWrite_end (n : Nat) (sym : PulseSymbol) (m : Memory) :
    writtenSymbols (n + 1) (memWrite n sym m) = writtenSymbols n m ++ [sym] := by
  have hlow : writtenSymbols n (memWrite n sym m) = writtenSymbols n m :=
    writtenSymbols_congr fun j hj => memRead_memWrite_other sym m (by omega)
  unfold writtenSymbols at hlow ⊢
  rw [List.range_succ, List.filterMap_append, hlow]
  simp

end Sys2Proof.Machine
end

