-- ==== Sys2Proof/Laws/State.lean ====
section
/-! SUPPORT. Small laws of the state, its updates and the register operations. -/

namespace Sys2Proof.Machine

/-! ### Register updates, field by field -/

section
variable (p : Phase) (c : Cursor) (r : Registers)

@[simp] theorem writeCursor_lifecycle : (writeCursor p c r).lifecycle = r.lifecycle := rfl
@[simp] theorem writeCursor_phase : (writeCursor p c r).phase = some p := rfl
@[simp] theorem writeCursor_byteIndex : (writeCursor p c r).byteIndex = some c.byteIndex := rfl
@[simp] theorem writeCursor_bitIndex : (writeCursor p c r).bitIndex = some c.bitIndex := rfl
@[simp] theorem writeCursor_bitOrder : (writeCursor p c r).bitOrder = r.bitOrder := rfl
@[simp] theorem writeCursor_resHz : (writeCursor p c r).resHz = r.resHz := rfl
@[simp] theorem writeCursor_bit0High : (writeCursor p c r).bit0High = r.bit0High := rfl
@[simp] theorem writeCursor_bit0Low : (writeCursor p c r).bit0Low = r.bit0Low := rfl
@[simp] theorem writeCursor_bit1High : (writeCursor p c r).bit1High = r.bit1High := rfl
@[simp] theorem writeCursor_bit1Low : (writeCursor p c r).bit1Low = r.bit1Low := rfl
@[simp] theorem writeCursor_resetTicks : (writeCursor p c r).resetTicks = r.resetTicks := rfl
end

section
variable (v : Held)

@[simp] theorem heldRegisters_lifecycle : (heldRegisters v).lifecycle = .created := rfl
@[simp] theorem heldRegisters_phase : (heldRegisters v).phase = some v.phase := rfl
@[simp] theorem heldRegisters_byteIndex :
    (heldRegisters v).byteIndex = some v.cursor.byteIndex := rfl
@[simp] theorem heldRegisters_bitIndex :
    (heldRegisters v).bitIndex = some v.cursor.bitIndex := rfl
@[simp] theorem heldRegisters_bitOrder : (heldRegisters v).bitOrder = some v.order := rfl
@[simp] theorem heldRegisters_resHz : (heldRegisters v).resHz = some v.timing.resHz := rfl
@[simp] theorem heldRegisters_bit0High :
    (heldRegisters v).bit0High = some v.timing.bit0.high := rfl
@[simp] theorem heldRegisters_bit0Low : (heldRegisters v).bit0Low = some v.timing.bit0.low := rfl
@[simp] theorem heldRegisters_bit1High :
    (heldRegisters v).bit1High = some v.timing.bit1.high := rfl
@[simp] theorem heldRegisters_bit1Low : (heldRegisters v).bit1Low = some v.timing.bit1.low := rfl
@[simp] theorem heldRegisters_resetTicks :
    (heldRegisters v).resetTicks = some v.timing.resetTicks := rfl
end

@[simp] theorem unsetRegisters_lifecycle (l : Lifecycle) :
    (unsetRegisters l).lifecycle = l := rfl

@[simp] theorem createdRegisters_lifecycle (o : BitOrder) (t : TimingConfig) :
    (createdRegisters o t).lifecycle = .created := rfl

/-- CREATE leaves a fresh set of held values. -/
theorem createdRegisters_eq_held (o : BitOrder) (t : TimingConfig) :
    createdRegisters o t = heldRegisters ⟨.data, startCursor, o, t⟩ := rfl

/-- Writing the cursor of held registers changes the held phase and cursor. -/
@[simp] theorem writeCursor_held (p : Phase) (c : Cursor) (v : Held) :
    writeCursor p c (heldRegisters v) = heldRegisters { v with phase := p, cursor := c } := rfl

/-- Held registers determine the held values. -/
theorem heldRegisters_inj {v w : Held} (h : heldRegisters v = heldRegisters w) : v = w := by
  obtain ⟨p, ⟨b, i⟩, o, ⟨r, ⟨h0, l0⟩, ⟨h1, l1⟩, t⟩⟩ := v
  obtain ⟨p', ⟨b', i'⟩, o', ⟨r', ⟨h0', l0'⟩, ⟨h1', l1'⟩, t'⟩⟩ := w
  simp_all [heldRegisters]

/-! ### Accepting a command, field by field -/

section
variable (t : Transaction) (rest : List Transaction) (s : State)

@[simp] theorem accept_regs : (accept t rest s).regs = s.regs := rfl
@[simp] theorem accept_config : (accept t rest s).config = s.config := rfl
@[simp] theorem accept_port : (accept t rest s).port = rest := rfl
@[simp] theorem accept_allocOk : (accept t rest s).allocOk = t.allocOk := rfl
@[simp] theorem accept_response : (accept t rest s).response = s.response := rfl
@[simp] theorem accept_dest : (accept t rest s).dest = s.dest := rfl
@[simp] theorem accept_violations : (accept t rest s).violations = s.violations := rfl
end

section
variable (s : State) (nbits w : Nat)

@[simp] theorem withFetchWord_regs : (s.withFetchWord nbits w).regs = s.regs := rfl
@[simp] theorem withFetchWord_config : (s.withFetchWord nbits w).config = s.config := rfl
@[simp] theorem withFetchWord_port :
    (s.withFetchWord nbits w).port = transactionOfWord w :: s.port := rfl
@[simp] theorem withFetchWord_dest : (s.withFetchWord nbits w).dest = s.dest := rfl
@[simp] theorem withFetchWord_violations :
    (s.withFetchWord nbits w).violations = s.violations := rfl
end

/-! ### Reading registers, answering and raising -/

@[simp] theorem readReg_some {α : Type} (a : α) (id : RegId) (k : α → Result) :
    readReg (some a) id k = k a := rfl

@[simp] theorem readReg_none {α : Type} (id : RegId) (k : α → Result) :
    readReg (none : Option α) id k = .fault (.unsetRegister id) := rfl

/-- A register read that goes on to a next state found a value. -/
theorem readReg_next {α : Type} {r : Option α} {id : RegId} {k : α → Result} {u : State}
    (h : readReg r id k = .next u) : ∃ a, r = some a ∧ k a = .next u := by
  cases r with
  | none => cases h
  | some a => exact ⟨a, rfl, h⟩

theorem readCursor_next {r : Registers} {k : Cursor → Result} {u : State}
    (h : readCursor r k = .next u) :
    ∃ c : Cursor, r.byteIndex = some c.byteIndex ∧ r.bitIndex = some c.bitIndex ∧ k c = .next u := by
  obtain ⟨b, hb, h⟩ := readReg_next h
  obtain ⟨i, hi, h⟩ := readReg_next h
  exact ⟨⟨b, i⟩, hb, hi, h⟩

theorem readShapes_next {r : Registers} {k : PulseShape → PulseShape → Result} {u : State}
    (h : readShapes r k = .next u) : ∃ s0 s1, k s0 s1 = .next u := by
  obtain ⟨h0, _, h⟩ := readReg_next h
  obtain ⟨l0, _, h⟩ := readReg_next h
  obtain ⟨h1, _, h⟩ := readReg_next h
  obtain ⟨l1, _, h⟩ := readReg_next h
  exact ⟨_, _, h⟩

@[simp] theorem readCursor_held (v : Held) (k : Cursor → Result) :
    readCursor (heldRegisters v) k = k v.cursor := rfl

@[simp] theorem readShapes_held (v : Held) (k : PulseShape → PulseShape → Result) :
    readShapes (heldRegisters v) k = k v.timing.bit0 v.timing.bit1 := rfl

/-- All that `respond` does. -/
theorem respond_next {r : Response} {s u : State} :
    respond r s = .next u ↔ u = { s with response := some r } := by
  constructor
  · intro h; cases h; rfl
  · rintro rfl; rfl

/-- All that `raise` does. -/
theorem raise_next {e : Status} {s u : State} :
    raise e s = .next u ↔ u =
      { s with
        response := some (errorResponse e)
        violations := if isViolation e then s.violations ++ [e] else s.violations } := by
  constructor
  · intro h; cases h; rfl
  · rintro rfl; rfl

/-! ### Positions of the cursor -/

@[simp] theorem bitPosition_cursorAt (k : Nat) : bitPosition (cursorAt k) = k := by
  simp only [bitPosition, cursorAt]; omega

@[simp] theorem cursorAt_bitPosition (c : Cursor) : cursorAt (bitPosition c) = c := by
  obtain ⟨b, i⟩ := c
  simp only [cursorAt, bitPosition, Cursor.mk.injEq, Fin.ext_iff]
  omega

/-- A cursor is determined by its bit position. -/
theorem bitPosition_inj {c d : Cursor} (h : bitPosition c = bitPosition d) : c = d := by
  rw [← cursorAt_bitPosition c, h, cursorAt_bitPosition]

/-- The cursor moves by exactly one bit (R124). -/
@[simp] theorem bitPosition_advance (c : Cursor) : bitPosition (advance c) = bitPosition c + 1 := by
  simp only [bitPosition, advance]
  split <;> simp <;> omega

theorem cursorInRange_iff (c : Cursor) (len : Nat) :
    cursorInRange c len = true ↔
      (c.byteIndex < len ∨ (c.byteIndex = len ∧ c.bitIndex = 0)) := by
  simp [cursorInRange]

/-- In range means at most at the end, counted in bits. -/
theorem cursorInRange_iff_bitPosition (c : Cursor) (len : Nat) :
    cursorInRange c len = true ↔ bitPosition c ≤ 8 * len := by
  simp only [cursorInRange_iff, bitPosition, Fin.ext_iff, Fin.val_zero]
  omega

/-- The bits that remain are those between the position and the end (R130). -/
theorem remainingBits_add_bitPosition {c : Cursor} {len : Nat}
    (h : cursorInRange c len = true) : remainingBits len c + bitPosition c = 8 * len := by
  rw [cursorInRange_iff] at h
  simp only [remainingBits, bitPosition]
  rcases h with h | ⟨h, h'⟩
  · omega
  · simp only [h, h', Fin.val_zero]; omega

end Sys2Proof.Machine
end

