-- ==== Sys2Proof/Laws/Converter.lean ====
section
/-! SUPPORT. What the converter and the emitter can do: the count law, the content law and the cursor
law in one lemma about the loop (spec/42_byte_stream_encoder.md R130, R131). -/

namespace Sys2Proof.Machine

/-- The stream bit at the cursor is the bit the converter reads (R131). -/
@[simp] theorem bitStream_bitPosition (order : BitOrder) (data : List Byte) (c : Cursor) :
    bitStream order data (bitPosition c) = bitAt order data c := by
  simp [bitStream]

/-- A cursor in range is at the end exactly when no bits remain. -/
theorem atEnd_iff {c : Cursor} {len : Nat} (h : cursorInRange c len = true) :
    c.byteIndex = len ↔ remainingBits len c = 0 := by
  rw [cursorInRange_iff] at h
  simp only [remainingBits]
  rcases h with h | ⟨h, h'⟩
  · omega
  · simp [h]

/-- Before the end there is a bit to read (R132). -/
theorem bitAt_some {order : BitOrder} {data : List Byte} {c : Cursor}
    (h : c.byteIndex < data.length) : ∃ b, bitAt order data c = some b :=
  ⟨_, by simp only [bitAt, dataRead, List.getElem?_eq_getElem h, Option.map_some]; rfl⟩

/-- Before the end, advancing leaves one bit less and stays in range. -/
theorem advance_inRange {c : Cursor} {len : Nat} (h : c.byteIndex < len) :
    cursorInRange (advance c) len = true ∧
      remainingBits len (advance c) + 1 = remainingBits len c := by
  have hc : cursorInRange c len = true := (cursorInRange_iff c len).mpr (.inl h)
  have hrem := remainingBits_add_bitPosition hc
  have hpos : remainingBits len c ≠ 0 := fun h0 => by
    have := (atEnd_iff hc).mpr h0; omega
  have hadv : cursorInRange (advance c) len = true := by
    rw [cursorInRange_iff_bitPosition, bitPosition_advance]; omega
  have hrem' := remainingBits_add_bitPosition hadv
  rw [bitPosition_advance] at hrem'
  exact ⟨hadv, by omega⟩

/-- Everything the loop does from a cursor in range, with `room` units of capacity and `m` symbols
written. -/
theorem converterLoop_spec (order : BitOrder) (bit0 bit1 : PulseShape) (data : List Byte)
    (room : Nat) : ∀ (m : Nat) (c : Cursor) (dest : Memory), cursorInRange c data.length = true →
    ∃ x, converterLoop order bit0 bit1 data room m c dest = .ok x ∧
      x.outcome = ⟨m + min room (remainingBits data.length c),
        decide (remainingBits data.length c ≤ room),
        decide (room < remainingBits data.length c)⟩ ∧
      bitPosition x.cursor = bitPosition c + min room (remainingBits data.length c) ∧
      cursorInRange x.cursor data.length = true ∧
      (∀ j, memRead j x.dest =
        if m ≤ j ∧ j < m + min room (remainingBits data.length c) then
          (bitStream order data (bitPosition c + (j - m))).map (dataSym bit0 bit1)
        else memRead j dest) ∧
      (Memory.wf dest → Memory.wf x.dest) := by
  have atEnd : ∀ (room m : Nat) (c : Cursor) (dest : Memory),
      cursorInRange c data.length = true → c.byteIndex = data.length →
      remainingBits data.length c = 0 := fun room m c dest hc he => (atEnd_iff hc).mp he
  induction room with
  | zero =>
    intro m c dest hc
    by_cases he : c.byteIndex = data.length
    · have h0 := atEnd 0 m c dest hc he
      refine ⟨⟨c, dest, ⟨m, true, false⟩⟩, by simp [converterLoop, he], by simp [h0], by simp, hc,
        fun j => ?_, id⟩
      rw [if_neg (by simp)]
    · have h0 : remainingBits data.length c ≠ 0 := fun h => he ((atEnd_iff hc).mpr h)
      refine ⟨⟨c, dest, ⟨m, false, true⟩⟩, by simp [converterLoop, he],
        by simp [h0, Nat.pos_of_ne_zero h0], by simp, hc, fun j => ?_, id⟩
      rw [if_neg (by simp)]
  | succ room ih =>
    intro m c dest hc
    by_cases he : c.byteIndex = data.length
    · have h0 := atEnd 0 m c dest hc he
      refine ⟨⟨c, dest, ⟨m, true, false⟩⟩, by simp [converterLoop, he], by simp [h0],
        by simp [h0], hc, fun j => ?_, id⟩
      rw [if_neg (by simp [h0])]
    · have hlt : c.byteIndex < data.length := by
        rcases (cursorInRange_iff c _).mp hc with h | ⟨h, _⟩
        · exact h
        · exact absurd h he
      obtain ⟨b, hb⟩ := bitAt_some (order := order) hlt
      obtain ⟨hadv, hrem⟩ := advance_inRange hlt
      obtain ⟨x, hx, hout, hpos, hin, hmem, hwf⟩ :=
        ih (m + 1) (advance c) (memWrite m (dataSym bit0 bit1 b) dest) hadv
      refine ⟨x, by simp [converterLoop, he, hb, hx], ?_, ?_, hin, fun j => ?_,
        fun h => hwf (memWrite_wf _ _ h)⟩
      · rw [hout]
        simp only [SubOutcome.mk.injEq, decide_eq_decide]
        omega
      · rw [hpos, bitPosition_advance]; omega
      · rw [hmem j, bitPosition_advance, memRead_memWrite]
        by_cases hj : j = m
        · subst hj
          rw [if_neg (by omega), if_pos rfl, if_pos (by omega), Nat.sub_self, Nat.add_zero,
            bitStream_bitPosition, hb, Option.map_some]
        · rw [if_neg hj]
          by_cases hr : m + 1 ≤ j ∧ j < m + 1 + min room (remainingBits data.length (advance c))
          · rw [if_pos hr, if_pos (by omega)]
            congr 2; omega
          · rw [if_neg hr, if_neg (by omega)]

/-- Everything ContinueData does from a cursor in range (R130, R131). -/
theorem continueData_spec (order : BitOrder) (bit0 bit1 : PulseShape) (data : List Byte)
    (cap : Nat) (c : Cursor) (dest : Memory) (hc : cursorInRange c data.length = true) :
    ∃ x, continueData order bit0 bit1 data cap c dest = .ok x ∧
      x.outcome = ⟨min cap (remainingBits data.length c),
        decide (remainingBits data.length c ≤ cap), decide (cap < remainingBits data.length c)⟩ ∧
      bitPosition x.cursor = bitPosition c + min cap (remainingBits data.length c) ∧
      cursorInRange x.cursor data.length = true ∧
      (∀ j, memRead j x.dest =
        if j < min cap (remainingBits data.length c) then
          (bitStream order data (bitPosition c + j)).map (dataSym bit0 bit1)
        else memRead j dest) ∧
      (Memory.wf dest → Memory.wf x.dest) := by
  obtain ⟨x, hx, hout, hpos, hin, hmem, hwf⟩ :=
    converterLoop_spec order bit0 bit1 data cap 0 c dest hc
  exact ⟨x, hx, by simpa using hout, hpos, hin, fun j => by simpa using hmem j, hwf⟩

/-- Everything ContinueReset does (R141, R145). -/
theorem continueReset_spec (ticks : Tick) (cap p : Nat) (dest : Memory) :
    (continueReset ticks cap p dest).outcome = ⟨min cap 1, decide (1 ≤ cap), decide (cap = 0)⟩ ∧
      (∀ j, memRead j (continueReset ticks cap p dest).dest =
        if 1 ≤ cap ∧ j = p then some (resetSym ticks) else memRead j dest) ∧
      (Memory.wf dest → Memory.wf (continueReset ticks cap p dest).dest) := by
  unfold continueReset
  split
  · next h => subst h; simp
  · next h =>
    have h1 : 1 ≤ cap := by omega
    refine ⟨by simp [h, h1], fun j => ?_, memWrite_wf _ _⟩
    simp [h1, memRead_memWrite]

end Sys2Proof.Machine
end

