-- ==== Sys2Proof/Laws/Decode.lean ====
section
/-! SUPPORT. The fields of a command word as numbers, and the encoder's words. -/

namespace Sys2Proof

theorem toNat_opField (w : Word) : (opField w).toNat = w.toNat % 16 := by
  simp [opField, BitVec.extractLsb'_toNat]

theorem toNat_createFields (w : Word) : (createFields w).toNat = w.toNat / 16 % 4 := by
  simp [createFields, BitVec.extractLsb'_toNat, Nat.shiftRight_eq_div_pow]

theorem toNat_reservedField (w : Word) : (reservedField w).toNat = w.toNat / 64 := by
  have := w.isLt
  simp only [reservedField, BitVec.extractLsb'_toNat, Nat.shiftRight_eq_div_pow]
  omega

theorem boField_eq (w : Word) : boField w = decide (w.toNat / 16 % 2 = 1) := by
  simp [boField, BitVec.getLsbD, Nat.testBit_eq_decide_div_mod_eq]

theorem srcField_eq (w : Word) : srcField w = decide (w.toNat / 32 % 2 = 1) := by
  simp [srcField, BitVec.getLsbD, Nat.testBit_eq_decide_div_mod_eq]

/-- Reading back a bit order written as `BO` (R73). -/
@[simp] theorem orderOfBit_bitOfOrder (o : BitOrder) : orderOfBit (bitOfOrder o) = o := by
  cases o <;> rfl

@[simp] theorem bitOfOrder_orderOfBit (b : Bool) : bitOfOrder (orderOfBit b) = b := by
  cases b <;> rfl

/-! ### The seven legal words (R87) -/

theorem decodeWord_01 : decodeWord 0x00000001 = .ok (.create .msbFirst false) := by decide
theorem decodeWord_11 : decodeWord 0x00000011 = .ok (.create .lsbFirst false) := by decide
theorem decodeWord_21 : decodeWord 0x00000021 = .ok (.create .msbFirst true) := by decide
theorem decodeWord_31 : decodeWord 0x00000031 = .ok (.create .lsbFirst true) := by decide
theorem decodeWord_02 : decodeWord 0x00000002 = .ok .encode := by decide
theorem decodeWord_03 : decodeWord 0x00000003 = .ok .reset := by decide
theorem decodeWord_04 : decodeWord 0x00000004 = .ok .dispose := by decide

/-- A command decodes as its word does, with its operands (R70, R76). -/
theorem decode_eq {word : Word} {f : Form} (h : decodeWord word = .ok f) (o : Operands) :
    decode ⟨word, o⟩ = .ok (withOperands o f) := by
  simp [decode, h]

theorem decode_error {word : Word} {e : Illegal} (h : decodeWord word = .error e) (o : Operands) :
    decode ⟨word, o⟩ = .error e := by
  simp [decode, h]

/-- A command that decodes has a legal word. -/
theorem decode_ok {c : Command} {i : Instr} (h : decode c = .ok i) :
    ∃ f, decodeWord c.word = .ok f ∧ i = withOperands c.operands f := by
  unfold decode at h
  split at h
  · cases h
  · next f hf => cases h; exact ⟨f, hf, rfl⟩

end Sys2Proof
end

