-- ==== Sys2Proof/Laws/Timing.lean ====
section
/-! SUPPORT. What the timing derivation and CREATE can do. -/

namespace Sys2Proof.Machine

theorem countsFit_iff (t : TickCounts) :
    countsFit t = true ↔ (t.b0h ≤ 2 ^ 32 - 1 ∧ t.b0l ≤ 2 ^ 32 - 1 ∧ t.b1h ≤ 2 ^ 32 - 1 ∧
      t.b1l ≤ 2 ^ 32 - 1 ∧ t.rst ≤ 2 ^ 32 - 1) := by
  simp [countsFit, fitsTick, and_assoc]

/-- The three results of the derivation, each under its condition (R102, R106, R107). -/
theorem deriveTiming_cases (k : TimingConstants) (res : Word) :
    (res = 0 ∧ deriveTiming k res = .error .configErrorResZero) ∨
    (res ≠ 0 ∧ countsFit (tickCounts k res) = false ∧
      deriveTiming k res = .error .configErrorTickOverflow) ∨
    (res ≠ 0 ∧ countsFit (tickCounts k res) = true ∧
      deriveTiming k res = .ok (timingOfCounts res (tickCounts k res))) := by
  by_cases h : res = 0
  · exact .inl ⟨h, if_pos h⟩
  · cases hf : countsFit (tickCounts k res) with
    | false => exact .inr (.inl ⟨h, rfl, by rw [deriveTiming, if_neg h, hf]; rfl⟩)
    | true => exact .inr (.inr ⟨h, rfl, by rw [deriveTiming, if_neg h, hf]; rfl⟩)

/-- A derivation succeeds exactly on a non-zero resolution whose counts fit (R102, R106). -/
theorem deriveTiming_ok {k : TimingConstants} {res : Word} {t : TimingConfig} :
    deriveTiming k res = .ok t ↔
      res ≠ 0 ∧ countsFit (tickCounts k res) = true ∧
        t = timingOfCounts res (tickCounts k res) := by
  rcases deriveTiming_cases k res with ⟨h, hd⟩ | ⟨h, hf, hd⟩ | ⟨h, hf, hd⟩
  · rw [hd]; exact ⟨fun h' => (nomatch h'), fun h' => absurd h h'.1⟩
  · rw [hd, hf]; exact ⟨fun h' => (nomatch h'), fun h' => (nomatch h'.2.1)⟩
  · rw [hd]
    exact ⟨fun h' => ⟨h, hf, (Except.ok.inj h').symm⟩, fun h' => by rw [h'.2.2]⟩

/-- A successful derivation is of a resolution above zero (R29). -/
theorem deriveTiming_resHz {k : TimingConstants} {res : Word} {t : TimingConfig}
    (h : deriveTiming k res = .ok t) : t.resHz = res ∧ res ≠ 0 := by
  obtain ⟨hne, _, rfl⟩ := deriveTiming_ok.mp h
  exact ⟨rfl, hne⟩

/-- A derivation fails with a configuration error only (R102, R106). -/
theorem deriveTiming_error {k : TimingConstants} {res : Word} {e : Status}
    (h : deriveTiming k res = .error e) :
    e = .configErrorResZero ∨ e = .configErrorTickOverflow := by
  rcases deriveTiming_cases k res with ⟨_, hd⟩ | ⟨_, _, hd⟩ | ⟨_, _, hd⟩ <;>
    rw [hd] at h <;> cases h <;> simp

/-- Everything CREATE can answer: one of its four errors, or the configured registers. -/
theorem createWith_next {order : BitOrder} {res : Word} {k : TimingConstants} {s u : State}
    (h : createWith order res k s = .next u) :
    (s.regs.lifecycle = .created ∧ raise .invalidHandle s = .next u) ∨
    (s.regs.lifecycle ≠ .created ∧
      ((∃ e, deriveTiming k res = .error e ∧ raise e s = .next u) ∨
        (∃ t, deriveTiming k res = .ok t ∧ s.allocOk = false ∧ raise .allocFailure s = .next u) ∨
        (∃ t, deriveTiming k res = .ok t ∧ s.allocOk = true ∧
          u = { s with regs := createdRegisters order t, response := some okResponse }))) := by
  unfold createWith at h
  split at h
  · exact .inl ⟨‹_›, h⟩
  · refine .inr ⟨‹_›, ?_⟩
    split at h
    · exact .inl ⟨_, ‹_›, h⟩
    · split at h
      · exact .inr (.inr ⟨_, ‹_›, ‹_›, respond_next.mp h⟩)
      · exact .inr (.inl ⟨_, ‹_›, Bool.eq_false_of_not_eq_true ‹_›, h⟩)

/-- CREATE always answers a next state. -/
theorem createWith_total (order : BitOrder) (res : Word) (k : TimingConstants) (s : State) :
    ∃ u, createWith order res k s = .next u := by
  unfold createWith
  split
  · exact ⟨_, rfl⟩
  · split
    · exact ⟨_, rfl⟩
    · split <;> exact ⟨_, rfl⟩

end Sys2Proof.Machine
end

