-- ==== Sys2Proof/Laws/Frame.lean ====
section
/-! SUPPORT. What ENCODE, RESET and DISPOSE can do: one inversion lemma for each step of ENCODE and for
the commands, for every state, and the same read forwards for held registers. -/

namespace Sys2Proof.Machine

@[simp] theorem dataSym_isDataSymbol (bit0 bit1 : PulseShape) (b : Bool) :
    isDataSymbol (dataSym bit0 bit1 b) := by
  cases b <;> exact ⟨rfl, rfl⟩

/-- Everything step 2 of ENCODE can answer (R159 to R161). -/
theorem encodeResetStep_next {cap n : Nat} {s u : State} (h : encodeResetStep cap n s = .next u) :
    ∃ ticks, s.regs.resetTicks = some ticks ∧
      ((cap - n = 0 ∧ u = { s with response := some (bufferFullResponse n) }) ∨
        (1 ≤ cap - n ∧ u =
          { s with
            regs := writeCursor .data startCursor s.regs
            response := some (completeResponse (n + 1))
            dest := memWrite n (resetSym ticks) s.dest })) := by
  obtain ⟨ticks, ht, h⟩ := readReg_next h
  refine ⟨ticks, ht, ?_⟩
  by_cases hc : cap - n = 0
  · refine .inl ⟨hc, ?_⟩
    simpa [continueReset, hc, respond] using h.symm
  · refine .inr ⟨by omega, ?_⟩
    simpa [continueReset, hc, respond] using h.symm

/-- Step 2 of ENCODE from held registers, with the capacity used up (R160). -/
theorem encodeResetStep_full {cap n : Nat} {s : State} {ticks : Tick}
    (hr : s.regs.resetTicks = some ticks) (hc : cap - n = 0) :
    encodeResetStep cap n s = .next { s with response := some (bufferFullResponse n) } := by
  simp [encodeResetStep, hr, continueReset, hc, respond]

/-- Step 2 of ENCODE from held registers, with capacity left (R161). -/
theorem encodeResetStep_complete {cap n : Nat} {s : State} {ticks : Tick}
    (hr : s.regs.resetTicks = some ticks) (hc : 1 ≤ cap - n) :
    encodeResetStep cap n s = .next
      { s with
        regs := writeCursor .data startCursor s.regs
        response := some (completeResponse (n + 1))
        dest := memWrite n (resetSym ticks) s.dest } := by
  have hne : cap - n ≠ 0 := by omega
  simp [encodeResetStep, hr, continueReset, hne, respond]

/-- Everything step 1 of ENCODE can answer from a cursor in range (R155 to R158). -/
theorem encodeDataStep_next {data : List Byte} {cap : Nat} {c : Cursor} {s u : State}
    (hc : cursorInRange c data.length = true) (h : encodeDataStep data cap c s = .next u) :
    ∃ order bit0 bit1 x, continueData order bit0 bit1 data cap c s.dest = .ok x ∧
      ((cap < remainingBits data.length c ∧ u =
          { s with
            regs := writeCursor .data x.cursor s.regs
            response := some (bufferFullResponse cap)
            dest := x.dest }) ∨
        (cap = remainingBits data.length c ∧ u =
          { s with
            regs := writeCursor .reset x.cursor s.regs
            response := some (bufferFullResponse cap)
            dest := x.dest }) ∨
        (remainingBits data.length c < cap ∧ ∃ ticks, s.regs.resetTicks = some ticks ∧ u =
          { s with
            regs := writeCursor .data startCursor s.regs
            response := some (completeResponse (remainingBits data.length c + 1))
            dest := memWrite (remainingBits data.length c) (resetSym ticks) x.dest })) := by
  obtain ⟨order, -, h⟩ := readReg_next h
  obtain ⟨bit0, bit1, h⟩ := readShapes_next h
  obtain ⟨x, hx, hout, -⟩ := continueData_spec order bit0 bit1 data cap c s.dest hc
  refine ⟨order, bit0, bit1, x, hx, ?_⟩
  simp only [hx, hout, decide_eq_true_eq] at h
  rcases Nat.lt_trichotomy cap (remainingBits data.length c) with hlt | heq | hgt
  · rw [if_pos hlt, Nat.min_eq_left hlt.le] at h
    exact .inl ⟨hlt, respond_next.mp h⟩
  · rw [if_neg (by omega), if_pos (by omega), Nat.min_eq_left heq.le] at h
    exact .inr (.inl ⟨heq, respond_next.mp h⟩)
  · rw [if_neg (by omega), if_neg (by omega), Nat.min_eq_right hgt.le] at h
    obtain ⟨ticks, ht, ⟨h0, -⟩ | ⟨-, hu⟩⟩ := encodeResetStep_next h
    · omega
    · exact .inr (.inr ⟨hgt, ticks, ht, hu⟩)

/-- Step 1 of ENCODE from held registers always answers a next state. -/
theorem encodeDataStep_total {data : List Byte} {cap : Nat} {c : Cursor} {s : State} {v : Held}
    (hr : s.regs = heldRegisters v) (hc : cursorInRange c data.length = true) :
    ∃ u, encodeDataStep data cap c s = .next u := by
  obtain ⟨x, hx, -⟩ := continueData_spec v.order v.timing.bit0 v.timing.bit1 data cap c s.dest hc
  simp only [encodeDataStep, hr, heldRegisters_bitOrder, readReg_some, readShapes_held, hx]
  split
  · exact ⟨_, rfl⟩
  · split
    · exact ⟨_, rfl⟩
    · simp only [encodeResetStep, writeCursor_resetTicks, heldRegisters_resetTicks, readReg_some]
      split <;> exact ⟨_, rfl⟩

/-- Everything ENCODE can answer (R152, R153): an error of the lifecycle or of the range, or one of its
two steps. -/
theorem execEncode_next {data : List Byte} {cap : Nat} {dest : Memory} {s u : State}
    (h : execEncode data cap dest s = .next u) :
    (s.regs.lifecycle ≠ .created ∧ raise .invalidHandle { s with dest := dest } = .next u) ∨
    (s.regs.lifecycle = .created ∧
      ((∃ c : Cursor, s.regs.phase = some .data ∧ s.regs.byteIndex = some c.byteIndex ∧
          s.regs.bitIndex = some c.bitIndex ∧
          ((cursorInRange c data.length = false ∧
              raise .cursorOutOfRange { s with dest := dest } = .next u) ∨
            (cursorInRange c data.length = true ∧
              encodeDataStep data cap c { s with dest := dest } = .next u))) ∨
        (s.regs.phase = some .reset ∧ encodeResetStep cap 0 { s with dest := dest } = .next u))) := by
  unfold execEncode encodeWithDest at h
  split at h
  · refine .inr ⟨‹_›, ?_⟩
    obtain ⟨phase, hp, h⟩ := readReg_next h
    cases phase with
    | data =>
      obtain ⟨c, hb, hi, h⟩ := readCursor_next h
      refine .inl ⟨c, hp, hb, hi, ?_⟩
      split at h
      · exact .inr ⟨‹_›, h⟩
      · exact .inl ⟨Bool.eq_false_of_not_eq_true ‹_›, h⟩
    | reset => exact .inr ⟨hp, h⟩
  · exact .inl ⟨‹_›, h⟩

/-- ENCODE of held registers in phase DATA with the cursor in range is step 1. -/
theorem execEncode_data {data : List Byte} {cap : Nat} {dest : Memory} {s : State} {v : Held}
    (hr : s.regs = heldRegisters v) (hp : v.phase = .data)
    (hc : cursorInRange v.cursor data.length = true) :
    execEncode data cap dest s = encodeDataStep data cap v.cursor { s with dest := dest } := by
  simp [execEncode, encodeWithDest, hr, hp, hc]

/-- ENCODE of held registers in phase RESET is step 2. -/
theorem execEncode_reset {data : List Byte} {cap : Nat} {dest : Memory} {s : State} {v : Held}
    (hr : s.regs = heldRegisters v) (hp : v.phase = .reset) :
    execEncode data cap dest s = encodeResetStep cap 0 { s with dest := dest } := by
  simp [execEncode, encodeWithDest, hr, hp]

/-- Everything RESET can answer (R170). -/
theorem execReset_next {s u : State} (h : execReset s = .next u) :
    (s.regs.lifecycle = .created ∧ u =
      { s with regs := writeCursor .data startCursor s.regs, response := some okResponse }) ∨
    (s.regs.lifecycle ≠ .created ∧ raise .invalidHandle s = .next u) := by
  unfold execReset at h
  split at h
  · exact .inl ⟨‹_›, respond_next.mp h⟩
  · exact .inr ⟨‹_›, h⟩

/-- Everything DISPOSE can answer (R172). -/
theorem execDispose_next {s u : State} (h : execDispose s = .next u) :
    (s.regs.lifecycle = .created ∧ u =
      { s with regs := unsetRegisters .disposed, response := some okResponse }) ∨
    (s.regs.lifecycle ≠ .created ∧ raise .invalidHandle s = .next u) := by
  unfold execDispose at h
  split at h
  · exact .inl ⟨‹_›, respond_next.mp h⟩
  · exact .inr ⟨‹_›, h⟩

end Sys2Proof.Machine
end

