-- ==== Sys2Proof/Laws/Step.lean ====
section
/-! SUPPORT. What a step can do: wait, raise ILLEGAL_COMMAND, refuse an inexpressible operand, or run the
decoded command. -/

namespace Sys2Proof.Machine

/-- Everything a step can answer as a next state (R70, R206, R231). -/
theorem step_next {s u : State} (h : step s = .next u) :
    (s.port = [] ∧ u = s) ∨
    (∃ t rest, s.port = t :: rest ∧
      ((∃ e, decode t.command = .error e ∧ raise .illegalCommand (accept t rest s) = .next u) ∨
        (∃ i, decode t.command = .ok i ∧ i.wf s.config.w = true ∧
          exec i (accept t rest s) = .next u))) := by
  unfold step nextCommand at h
  split at h
  · next hp => cases h; exact .inl ⟨hp, rfl⟩
  · next t rest hp =>
    refine .inr ⟨t, rest, hp, ?_⟩
    unfold runCommand at h
    split at h
    · exact .inl ⟨_, ‹_›, h⟩
    · split at h
      · exact .inr ⟨_, ‹_›, ‹_›, h⟩
      · cases h

/-- A step that takes a command from the port runs it. -/
theorem step_cons {s : State} {t : Transaction} {rest : List Transaction}
    (hp : s.port = t :: rest) : step s = runCommand t.command (accept t rest s) := by
  simp only [step, nextCommand, hp]

@[simp] theorem transactionOfWord_command (w : Nat) :
    (transactionOfWord w).command = commandOfWord w := rfl

/-- The step after `withFetchWord` runs the command of that word. -/
theorem step_withFetchWord (s : State) (nbits w : Nat) :
    step (s.withFetchWord nbits w) =
      runCommand (commandOfWord w)
        (accept (transactionOfWord w) s.port (s.withFetchWord nbits w)) := by
  rw [step_cons (withFetchWord_port s nbits w), transactionOfWord_command]

/-- A command that only raises is a next state with the registers as they were. -/
theorem raise_regs {e : Status} {s u : State} (h : raise e s = .next u) :
    u.regs = s.regs ∧ u.config = s.config ∧ u.port = s.port ∧ u.allocOk = s.allocOk ∧
      u.dest = s.dest ∧ u.response = some (errorResponse e) := by
  rw [raise_next.mp h]; exact ⟨rfl, rfl, rfl, rfl, rfl, rfl⟩

end Sys2Proof.Machine
end

