-- ==== Sys2Proof/Laws/Exec.lean ====
section
/-! SUPPORT. What a command can do, said once for every instruction and every state: it is raised, or it
has exactly the effect of its own kind. Whole-machine facts follow from this. -/

namespace Sys2Proof.Machine

/-- The destination space in force once a command has arrived: an ENCODE brings its own (R50). -/
def broughtDest (i : Instr) (s : State) : Memory :=
  match i with
  | .encode _ _ dest => dest
  | .create _ _ _ => s.dest
  | .createRom _ _ => s.dest
  | .reset => s.dest
  | .dispose => s.dest

/-- An instruction that is one of the two CREATE forms. -/
def isCreate (i : Instr) : Prop :=
  (∃ order res times, i = .create order res times) ∨ (∃ order res, i = .createRom order res)

/-- The registers an OK ENCODE can leave: as they were, or with a new cursor that is a place in DATA
and is `{_, 0}` in phase RESET. -/
def EncodeRegisters (data : List Byte) (r r' : Registers) : Prop :=
  r' = r ∨ ∃ p c, r' = writeCursor p c r ∧ c.byteIndex ≤ data.length ∧ (p = .reset → c.bitIndex = 0)

/-- The response and the destination an OK ENCODE can leave (R54, R163, R175), and the kinds of symbol it
writes: data symbols, and after them one reset symbol exactly if the frame is complete (R244). -/
structure EncodeAnswer (cap : Nat) (dest : Memory) (r : Response) (m : Memory) : Prop where
  ok : r.status = .ok
  written_le : r.written ≤ cap
  one_flag : r.complete = !r.bufferFull
  full : r.bufferFull = true → r.written = cap
  frame : ∀ j, r.written ≤ j → memRead j m = memRead j dest
  wf : Memory.wf dest → Memory.wf m
  kinds : ∃ body, (∀ x ∈ body, isDataSymbol x) ∧
    ((r.complete = true ∧ ∃ ticks, writtenSymbols r.written m = body ++ [resetSym ticks]) ∨
      (r.complete = false ∧ writtenSymbols r.written m = body))

/-- The symbols of positions that a converter has written are data symbols. -/
theorem writtenSymbols_data {f : Nat → Option Bool} {bit0 bit1 : PulseShape} {n : Nat} {m : Memory}
    (h : ∀ j, j < n → memRead j m = (f j).map (dataSym bit0 bit1)) :
    ∀ x ∈ writtenSymbols n m, isDataSymbol x := by
  intro x hx
  obtain ⟨j, hj, hread⟩ := mem_writtenSymbols.mp hx
  rw [h j hj] at hread
  obtain ⟨b, -, rfl⟩ := Option.map_eq_some_iff.mp hread
  exact dataSym_isDataSymbol bit0 bit1 b

theorem encodeResetStep_answer {data : List Byte} {cap : Nat} {s u : State}
    (h : encodeResetStep cap 0 s = .next u) :
    ∃ r regs m, u = { s with regs := regs, response := some r, dest := m } ∧
      EncodeRegisters data s.regs regs ∧ EncodeAnswer cap s.dest r m := by
  obtain ⟨ticks, -, ⟨h0, rfl⟩ | ⟨h1, rfl⟩⟩ := encodeResetStep_next h
  · exact ⟨_, _, _, rfl, .inl rfl, rfl, Nat.zero_le _, rfl, fun _ => h0.symm, fun _ _ => rfl, id,
      [], by simp, .inr ⟨rfl, rfl⟩⟩
  · refine ⟨_, _, _, rfl, .inr ⟨.data, startCursor, rfl, Nat.zero_le _, fun h => (nomatch h)⟩,
      rfl, h1, rfl, fun h => (nomatch h), fun j hj => memRead_memWrite_other _ _ ?_, memWrite_wf _ _,
      [], by simp, .inl ⟨rfl, ticks, writtenSymbols_memWrite_end _ _ _⟩⟩
    have : 1 ≤ j := hj
    omega

theorem encodeDataStep_answer {data : List Byte} {cap : Nat} {c : Cursor} {s u : State}
    (hc : cursorInRange c data.length = true) (h : encodeDataStep data cap c s = .next u) :
    ∃ r regs m, u = { s with regs := regs, response := some r, dest := m } ∧
      EncodeRegisters data s.regs regs ∧ EncodeAnswer cap s.dest r m := by
  obtain ⟨order, bit0, bit1, x, hx, h⟩ := encodeDataStep_next hc h
  obtain ⟨y, hy, -, hpos, hin, hmem, hwf⟩ :=
    continueData_spec order bit0 bit1 data cap c s.dest hc
  cases hx.symm.trans hy
  have hrem := remainingBits_add_bitPosition hc
  have hin' := (cursorInRange_iff _ _).mp hin
  have hdata : ∀ n, n ≤ min cap (remainingBits data.length c) →
      ∀ sym ∈ writtenSymbols n x.dest, isDataSymbol sym := fun n hn =>
    writtenSymbols_data fun j hj => by rw [hmem, if_pos (by omega)]
  rcases h with ⟨hlt, rfl⟩ | ⟨heq, rfl⟩ | ⟨hgt, ticks, -, rfl⟩
  · exact ⟨_, _, _, rfl,
      .inr ⟨.data, x.cursor, rfl, by omega, fun h => (nomatch h)⟩, rfl, Nat.le_refl _, rfl,
      fun _ => rfl, fun j hj => by
        have : cap ≤ j := hj
        rw [hmem, if_neg (by omega)], hwf, _, hdata cap (by omega), .inr ⟨rfl, rfl⟩⟩
  · refine ⟨_, _, _, rfl, .inr ⟨.reset, x.cursor, rfl, by omega, fun _ => ?_⟩, rfl, Nat.le_refl _,
      rfl, fun _ => rfl, fun j hj => ?_, hwf, _, hdata cap (by omega), .inr ⟨rfl, rfl⟩⟩
    · have := remainingBits_add_bitPosition hin
      have := (atEnd_iff hin).mpr (by omega)
      rcases hin' with h' | h'
      · omega
      · exact h'.2
    · have : cap ≤ j := hj
      rw [hmem, if_neg (by omega)]
  · refine ⟨_, _, _, rfl, .inr ⟨.data, startCursor, rfl, Nat.zero_le _, fun h => (nomatch h)⟩, rfl,
      hgt, rfl, fun h => (nomatch h), fun j hj => ?_, fun h => memWrite_wf _ _ (hwf h),
      _, hdata _ (by omega), .inl ⟨rfl, ticks, writtenSymbols_memWrite_end _ _ _⟩⟩
    have : remainingBits data.length c + 1 ≤ j := hj
    rw [memRead_memWrite_other _ _ (by omega), hmem, if_neg (by omega)]

/-- Everything a command can answer. -/
theorem exec_next {i : Instr} {s u : State} (h : exec i s = .next u) :
    (∃ e, e ≠ .ok ∧ raise e { s with dest := broughtDest i s } = .next u) ∨
    (isCreate i ∧ s.regs.lifecycle ≠ .created ∧ ∃ order k res t, deriveTiming k res = .ok t ∧
      u = { s with regs := createdRegisters order t, response := some okResponse }) ∨
    (∃ data cap dest r regs m, i = .encode data cap dest ∧ s.regs.lifecycle = .created ∧
      u = { s with regs := regs, response := some r, dest := m } ∧
      EncodeRegisters data s.regs regs ∧ EncodeAnswer cap dest r m) ∨
    (i = .reset ∧ s.regs.lifecycle = .created ∧
      u = { s with regs := writeCursor .data startCursor s.regs, response := some okResponse }) ∨
    (i = .dispose ∧ s.regs.lifecycle = .created ∧
      u = { s with regs := unsetRegisters .disposed, response := some okResponse }) := by
  have create : ∀ order res k, createWith order res k s = .next u →
      (∃ e, e ≠ .ok ∧ raise e s = .next u) ∨
      (s.regs.lifecycle ≠ .created ∧ ∃ order k res t, deriveTiming k res = .ok t ∧
        u = { s with regs := createdRegisters order t, response := some okResponse }) := by
    intro order res k h
    rcases createWith_next h with ⟨-, h⟩ | ⟨hl, ⟨e, hd, h⟩ | ⟨t, -, -, h⟩ | ⟨t, hd, -, hu⟩⟩
    · exact .inl ⟨_, by decide, h⟩
    · exact .inl ⟨e, by rcases deriveTiming_error hd with rfl | rfl <;> decide, h⟩
    · exact .inl ⟨_, by decide, h⟩
    · exact .inr ⟨hl, _, _, _, t, hd, hu⟩
  cases i with
  | create order res times =>
    rcases create order res times h with h | ⟨hl, h⟩
    · exact .inl h
    · exact .inr (.inl ⟨.inl ⟨_, _, _, rfl⟩, hl, h⟩)
  | createRom order res =>
    rcases create order res (romConstants s) h with h | ⟨hl, h⟩
    · exact .inl h
    · exact .inr (.inl ⟨.inr ⟨_, _, rfl⟩, hl, h⟩)
  | encode data cap dest =>
    rcases execEncode_next h with ⟨-, h⟩ | ⟨hl, ⟨c, -, -, -, ⟨-, h⟩ | ⟨hc, h⟩⟩ | ⟨-, h⟩⟩
    · exact .inl ⟨_, by decide, h⟩
    · exact .inl ⟨_, by decide, h⟩
    · obtain ⟨r, regs, m, hu, hr, ha⟩ := encodeDataStep_answer hc h
      exact .inr (.inr (.inl ⟨data, cap, dest, r, regs, m, rfl, hl, hu, hr, ha⟩))
    · obtain ⟨r, regs, m, hu, hr, ha⟩ := encodeResetStep_answer (data := data) h
      exact .inr (.inr (.inl ⟨data, cap, dest, r, regs, m, rfl, hl, hu, hr, ha⟩))
  | reset =>
    rcases execReset_next h with ⟨hl, hu⟩ | ⟨-, h⟩
    · exact .inr (.inr (.inr (.inl ⟨rfl, hl, hu⟩)))
    · exact .inl ⟨_, by decide, h⟩
  | dispose =>
    rcases execDispose_next h with ⟨hl, hu⟩ | ⟨-, h⟩
    · exact .inr (.inr (.inr (.inr ⟨rfl, hl, hu⟩)))
    · exact .inl ⟨_, by decide, h⟩

/-- In a state whose registers are all held, or not CREATED, every command answers a next state. -/
theorem exec_total (i : Instr) {s : State}
    (h : (∃ v, s.regs = heldRegisters v) ∨ s.regs.lifecycle ≠ .created) :
    ∃ u, exec i s = .next u := by
  cases i with
  | create order res times => exact createWith_total order res times s
  | createRom order res => exact createWith_total order res (romConstants s) s
  | encode data cap dest =>
    show ∃ u, execEncode data cap dest s = .next u
    rcases h with ⟨v, hv⟩ | h
    · cases hp : v.phase with
      | data =>
        cases hc : cursorInRange v.cursor data.length with
        | true =>
          rw [execEncode_data hv hp hc]
          exact encodeDataStep_total (s := { s with dest := dest }) hv hc
        | false => exact ⟨_, by simp [execEncode, encodeWithDest, hv, hp, hc]; rfl⟩
      | reset =>
        rw [execEncode_reset hv hp]
        have ht : s.regs.resetTicks = some v.timing.resetTicks := by rw [hv]; rfl
        rcases Nat.eq_zero_or_pos (cap - 0) with h0 | h1
        · exact ⟨_, encodeResetStep_full (s := { s with dest := dest }) ht h0⟩
        · exact ⟨_, encodeResetStep_complete (s := { s with dest := dest }) ht h1⟩
    · exact ⟨_, by simp [execEncode, encodeWithDest, h]; rfl⟩
  | reset =>
    show ∃ u, execReset s = .next u
    unfold execReset
    split <;> exact ⟨_, rfl⟩
  | dispose =>
    show ∃ u, execDispose s = .next u
    unfold execDispose
    split <;> exact ⟨_, rfl⟩

end Sys2Proof.Machine
end

