-- ==== Sys2Proof/Laws/FrameLog.lean ====
section
/-! SUPPORT. The small laws of the frames of a run (spec/70_reset_and_hazards.md R244): what a bound, a
raised command, a wait and a step do to the log. -/

namespace Sys2Proof.Machine

@[simp] theorem FrameLog.empty_frames : FrameLog.empty.frames = [] := rfl
@[simp] theorem FrameLog.empty_current : FrameLog.empty.current = none := rfl

@[simp] theorem FrameLog.cut_current (g : FrameLog) : g.cut.current = none := by
  unfold FrameLog.cut
  split
  · assumption
  · rfl

/-- A bound adds the open frame to the finished ones, as cut short. -/
theorem FrameLog.cut_frames (g : FrameLog) :
    g.cut.frames = g.frames ++ (g.current.map fun out => (⟨out, false⟩ : Frame)).toList := by
  unfold FrameLog.cut
  cases h : g.current <;> simp

/-- A command that raised an error does nothing to the frames. -/
@[simp] theorem FrameLog.command_raised {i : Instr} {r : Response} {dest : Memory} (g : FrameLog)
    (h : r.status ≠ .ok) : g.command i r dest = g := by
  simp [FrameLog.command, h]

@[simp] theorem FrameLog.step_wait {s : State} (u : State) (g : FrameLog) (h : s.port = []) :
    g.step s u = g := by
  simp [FrameLog.step, h]

/-- A step that ran a decoded command does to the frames what the command and its response say. -/
theorem FrameLog.step_decoded {s u : State} {t : Transaction} {rest : List Transaction} {i : Instr}
    {r : Response} (g : FrameLog) (hp : s.port = t :: rest) (hd : decode t.command = .ok i)
    (hr : u.response = some r) : g.step s u = g.command i r u.dest := by
  simp [FrameLog.step, hp, hd, hr]

theorem FrameLog.step_illegal {s : State} {t : Transaction} {rest : List Transaction} {e : Illegal}
    (u : State) (g : FrameLog) (hp : s.port = t :: rest) (hd : decode t.command = .error e) :
    g.step s u = g := by
  simp [FrameLog.step, hp, hd]

@[simp] theorem runFrames_zero (s : State) (g : FrameLog) : runFrames 0 s g = some (s, g) := rfl

theorem runFrames_succ {s u : State} (n : Nat) (g : FrameLog) (h : step s = .next u) :
    runFrames (n + 1) s g = runFrames n u (g.step s u) := by
  rw [runFrames, h]

/-- A frame that was cut short holds data symbols only. -/
theorem Frame.WellFormed.cut {f : Frame} (h : f.WellFormed) (hc : f.ended = false) :
    ∀ x ∈ f.symbols, isDataSymbol x := by
  obtain ⟨body, hb, ⟨he, -⟩ | ⟨-, hs⟩⟩ := h
  · rw [hc] at he; cases he
  · rw [hs]; exact hb

/-- A reset symbol is no data symbol. -/
theorem resetSym_not_isDataSymbol (ticks : Tick) : ¬ isDataSymbol (resetSym ticks) :=
  fun h => nomatch h.1

end Sys2Proof.Machine
end

