-- ==== Sys2Proof/Laws/PerInstr.lean ====
section
/-! SUPPORT. Facts about each instruction as syntax: its word and its row of spec/opcode_table.json. -/

namespace Sys2Proof.Laws.TableRow

/-- The word of an instruction lies in its row of spec/opcode_table.json: masked, it is the row's match. -/
def Statement : Instr → Prop
  | .create order res times =>
      encodeWord (.create order res times) &&& 0xFFFFFFEF = 0x00000001
  | .createRom order res => encodeWord (.createRom order res) &&& 0xFFFFFFEF = 0x00000021
  | .encode data cap dest => encodeWord (.encode data cap dest) &&& 0xFFFFFFFF = 0x00000002
  | .reset => encodeWord .reset &&& 0xFFFFFFFF = 0x00000003
  | .dispose => encodeWord .dispose &&& 0xFFFFFFFF = 0x00000004

theorem create (order : BitOrder) (res : Word) (times : TimingConstants) :
    Statement (.create order res times) := by
  cases order <;> simp [Statement, encodeWord, fieldAt, bitOfOrder]

theorem createRom (order : BitOrder) (res : Word) : Statement (.createRom order res) := by
  cases order <;> simp [Statement, encodeWord, fieldAt, bitOfOrder]

theorem encode (data : List Byte) (cap : Nat) (dest : Memory) :
    Statement (.encode data cap dest) := by simp [Statement, encodeWord]

theorem reset : Statement .reset := by simp [Statement, encodeWord]

theorem dispose : Statement .dispose := by simp [Statement, encodeWord]

end Sys2Proof.Laws.TableRow
end

