-- ==== Sys2Proof/Tests/Slice0.lean ====
section
/-! SUPPORT. Small tests of the model, each expected value from the vectors of
spec/95_test_vectors.md or from the rule named, and for every obligation with hypotheses a witness: a
concrete state and operands that meet them all together. -/

namespace Sys2Proof.Tests

open Sys2Proof Sys2Proof.Machine

/-! ### Helpers -/

/-- Project a next state; `none` for a fault or a refusal. -/
def onNext {α : Type} (f : State → Option α) : Result → Option α
  | .next u => f u
  | .fault _ => none
  | .refused _ => none

/-- The registers and the response after a step. -/
def outRegs (r : Result) : Option Registers := onNext (fun u => some u.regs) r
def outResponse (r : Result) : Option Response := onNext (fun u => u.response) r
def outDest (r : Result) : Option Memory := onNext (fun u => some u.dest) r
def outViolations (r : Result) : Option (List Status) := onNext (fun u => some u.violations) r

theorem next_of_outResponse {r : Result} {x : Response} (h : outResponse r = some x) :
    ∃ u, r = .next u ∧ u.response = some x := by
  cases r with
  | next u => exact ⟨u, rfl, h⟩
  | fault f => cases h
  | refused f => cases h

theorem next_of_outRegs {r : Result} {x : Registers} (h : outRegs r = some x) :
    ∃ u, r = .next u ∧ u.regs = x := by
  cases r with
  | next u => exact ⟨u, rfl, Option.some.inj h⟩
  | fault f => cases h
  | refused f => cases h

/-- The timing `T10` of 95_test_vectors.md: the default ROM at 10 MHz. -/
def t10Timing : TimingConfig := ⟨10000000, ⟨3, 9⟩, ⟨9, 3⟩, 250⟩

/-- Registers under `T10`, MSB first. -/
def t10 (p : Phase) (b : Nat) (i : Fin 8) : Held := ⟨p, ⟨b, i⟩, .msbFirst, t10Timing⟩

/-- The power-on state with the registers `v` in it. -/
def made (v : Held) : State := { State.reset with regs := heldRegisters v }

/-- The power-on state with one transaction before it. -/
def withCommand (i : Instr) (alloc : Bool) (s : State) : State :=
  { s with port := [⟨encode i, alloc⟩] }

/-- `S0`, `S1` and `R` under `T10`. -/
def s0 : PulseSymbol := ⟨.high, 3, .low, 9⟩
def s1 : PulseSymbol := ⟨.high, 9, .low, 3⟩
def symR : PulseSymbol := ⟨.low, 250, .low, 250⟩

/-- The five constants of V-T8. -/
def timesT8 : TimingConstants := ⟨300000, 900000, 900000, 300000, 50⟩

/-- The constants of V-T13: the largest legal tick count at 1 GHz. -/
def timesT13 : TimingConstants := ⟨4294967295, 0, 0, 0, 0⟩

/-- The constants of V-T14: an overflowing count. -/
def timesT14 : TimingConstants := ⟨4294967295, 900, 900, 300, 50⟩

/-- The constants of V-T16 and V-T17: the last reset duration that fits at 1 GHz, and the next. -/
def timesT16 : TimingConstants := ⟨0, 0, 0, 0, 8589934⟩
def timesT17 : TimingConstants := ⟨0, 0, 0, 0, 8589935⟩

/-! ### WellFormed: each check refuses an ill-formed term -/

/-- R50, R76: DATA longer than `2^W - 1` bytes (here `W = 1`). -/
theorem test_wf_refuses_long_data : Instr.wf 1 (.encode [0x00, 0x00] 1 []) = false := by decide

/-- R76, R77: `CAP` wider than its field. -/
theorem test_wf_refuses_wide_cap : Instr.wf 1 (.encode [0x00] 2 []) = false := by decide

/-- A DEST that is not in canonical form. -/
theorem test_wf_refuses_unordered_dest : Instr.wf 32 (.encode [] 3 [(1, s0), (0, s1)]) = false := by
  decide

/-- R50, R239: a DEST position at or beyond `CAP`. -/
theorem test_wf_refuses_dest_beyond_cap : Instr.wf 32 (.encode [] 1 [(1, s0)]) = false := by decide

theorem test_wf_accepts_the_largest : Instr.wf 1 (.encode [0x00] 1 [(0, s0)]) = true := by decide

/-! ### Decoding: words written out bit by bit from R71, R72 and R87 -/

/-- `RSVD = 0`, `SRC = 0`, `BO = 0`, `OP = 1`. -/
theorem test_decode_create_msb :
    decodeTableWord 32 0b00000000000000000000000000000001 =
      some (.create .msbFirst 0 Operands.zero.times) := by decide

/-- `RSVD = 0`, `SRC = 0`, `BO = 1`, `OP = 1`. -/
theorem test_decode_create_lsb :
    decodeTableWord 32 0b00000000000000000000000000010001 =
      some (.create .lsbFirst 0 Operands.zero.times) := by decide

/-- `RSVD = 0`, `SRC = 1`, `BO = 0`, `OP = 1`. -/
theorem test_decode_createRom_msb :
    decodeTableWord 32 0b00000000000000000000000000100001 = some (.createRom .msbFirst 0) := by decide

/-- `RSVD = 0`, `SRC = 1`, `BO = 1`, `OP = 1`. -/
theorem test_decode_createRom_lsb :
    decodeTableWord 32 0b00000000000000000000000000110001 = some (.createRom .lsbFirst 0) := by decide

/-- `OP = 2`, `OP = 3`, `OP = 4`, every other bit zero. -/
theorem test_decode_encode :
    decodeTableWord 32 0b00000000000000000000000000000010 = some (.encode [] 0 []) := by decide

theorem test_decode_reset :
    decodeTableWord 32 0b00000000000000000000000000000011 = some .reset := by decide

theorem test_decode_dispose :
    decodeTableWord 32 0b00000000000000000000000000000100 = some .dispose := by decide

/-- V-T24: with `SRC = 1` the timing operands of the record are ignored. -/
theorem test_decode_createRom_ignores_times :
    decode ⟨0x21, { Operands.zero with resHz := 10000000, times := ⟨1, 0, 0, 0, 0⟩ }⟩ =
      .ok (.createRom .msbFirst 10000000) := by decide

/-- After power-on `create.rom` with `RES_HZ = 0` raises CONFIG_ERROR_RES_ZERO (V-T19), so
`withFetchWord` brings the word to the port. -/
theorem test_step_runs_the_fetch_word :
    outResponse (step (State.reset.withFetchWord 32 0x21)) =
      some ⟨.configErrorResZero, 0, false, false⟩ := by decide

/-! ### One or two vectors per instruction -/

/-- V-T8. -/
theorem test_create_T8 :
    outRegs (exec (.create .msbFirst 1000000 timesT8) State.reset) =
      some (heldRegisters
        ⟨.data, ⟨0, 0⟩, .msbFirst, ⟨1000000, ⟨300, 900⟩, ⟨900, 300⟩, 25⟩⟩) := by decide

/-- V-T14. -/
theorem test_create_T14 :
    outResponse (exec (.create .msbFirst 4294967295 timesT14) State.reset) =
      some ⟨.configErrorTickOverflow, 0, false, false⟩ := by decide

/-- V-T23. -/
theorem test_createRom_T23 :
    outRegs (exec (.createRom .lsbFirst 40000000) State.reset) =
      some (heldRegisters
        ⟨.data, ⟨0, 0⟩, .lsbFirst, ⟨40000000, ⟨12, 36⟩, ⟨36, 12⟩, 1000⟩⟩) := by decide

/-- V-T20, through the port: the draw comes with the command. -/
theorem test_createRom_T20 :
    outResponse (step (withCommand (.createRom .msbFirst 10000000) false State.reset)) =
      some ⟨.allocFailure, 0, false, false⟩ := by decide

/-- V-C2: LSB first, data symbols 0,0,0,0,1,1,0,1 and then R. -/
theorem test_encode_C2 :
    outDest (exec (.encode [0xB0] 100 []) (made { t10 .data 0 0 with order := .lsbFirst })) =
      some [(0, s0), (1, s0), (2, s0), (3, s0), (4, s1), (5, s1), (6, s0), (7, s1), (8, symR)] := by
  decide

/-- V-E3: the boundary, cursor `(RESET,1,0)`. -/
theorem test_encode_E3 :
    outRegs (exec (.encode [0xB0] 8 []) (made (t10 .data 0 0))) =
      some (heldRegisters (t10 .reset 1 0)) := by decide

/-- V-X2: from `(RESET,1,0)`, no R is written and the cursor is `(DATA,0,0)`. -/
theorem test_reset_X2 :
    outRegs (exec .reset (made (t10 .reset 1 0))) = some (heldRegisters (t10 .data 0 0)) := by decide

/-- V-X4. -/
theorem test_reset_X4 :
    outViolations (exec .reset State.reset) = some [.invalidHandle] := by decide

/-- V-X5. -/
theorem test_dispose_X5 :
    outRegs (exec .dispose (made (t10 .data 0 4))) = some (unsetRegisters .disposed) := by decide

/-- V-X6. -/
theorem test_dispose_X6 :
    outResponse (exec .dispose { State.reset with regs := unsetRegisters .disposed }) =
      some ⟨.invalidHandle, 0, false, false⟩ := by decide

/-! ### Witnesses: encoding and the port -/

theorem witness_DecodeInvertsEncode :
    decode ⟨0x31, { Operands.zero with resHz := 4294967295 }⟩ = .ok (.createRom .lsbFirst 4294967295) := by
  decide

theorem witness_IllegalWordsAreExactlyTheReservedOnes :
    decode ⟨0x40, Operands.zero⟩ = .error .reservedBits ∧
    decode ⟨0x5, Operands.zero⟩ = .error .unassignedOpcode ∧
    decode ⟨0x14, Operands.zero⟩ = .error .fieldOutsideCreate ∧
    decode ⟨0x4, Operands.zero⟩ = .ok .dispose := by decide

/-- A line of P1 with its comment; and the last value that fits a byte and the first that does not. -/
theorem witness_TextLinesReadAsTheirParts :
    ';' ∉ "encode data=[0xB0], cap=100 ".toList ∧
    readLine "encode data=[0xB0], cap=100 ; 0x00000002".toList = some (.encode [0xB0] 100) ∧
    readNumeral 10 ("1".toList ++ '_' :: "000".toList) = some 1000 ∧
    readNumber "255".toList = some (2 ^ 8 - 1) ∧ readNumber "0x100".toList = some (2 ^ 8) := by decide

/-- Lines that R85 does not have. -/
theorem test_readLine_refuses :
    readLine "reset now".toList = none ∧ readLine "create.rom res=4294967296".toList = none ∧
    readLine "create.rom res=1_".toList = none ∧ readLine "encode data=[256], cap=1".toList = none ∧
    readLine "create.rom res=1, order=big".toList = none ∧ readLine "; a comment".toList = none := by
  decide

theorem witness_StepExecutesTheDecodedCommand :
    (withCommand (.encode [0xB0] 8 [(7, s0)]) true (made (t10 .data 0 0))).port =
      [⟨encode (.encode [0xB0] 8 [(7, s0)]), true⟩] ∧
    decode (encode (.encode [0xB0] 8 [(7, s0)])) = .ok (.encode [0xB0] 8 [(7, s0)]) ∧
    Instr.wf (withCommand (.encode [0xB0] 8 [(7, s0)]) true (made (t10 .data 0 0))).config.w
      (.encode [0xB0] 8 [(7, s0)]) = true := by decide

theorem witness_StepWaitsWithoutACommand : State.reset.port = [] := rfl

theorem witness_IllegalWordRaisesIllegalCommand :
    (State.reset.withFetchWord 32 0x80000002).port = [transactionOfWord 0x80000002] ∧
    decode (transactionOfWord 0x80000002).command = .error .reservedBits := by decide

theorem fits_t10_reset : HeldFits 32 (t10 .reset 1 0) :=
  ⟨by decide, fun _ => by decide, by decide⟩

/-- At `W = 1`, with ENCODE of two bytes on the port. -/
def narrow : State :=
  { withCommand (.encode [0, 0] 1 []) true (made (t10 .data 1 4)) with
      config := { Config.reference with w := 1 } }

/-- Both cases of the conclusion occur under the invariant: a step to a next state, and at `W = 1` an
operand that cannot be expressed. -/
theorem witness_StepStopsOnlyOnInexpressibleOperands :
    Inv (made (t10 .reset 1 0)) ∧
    (Inv narrow ∧ narrow.config.w = 1 ∧ Instr.wf 1 (.encode [0, 0] 1 []) = false) :=
  ⟨⟨.inl ⟨_, rfl, fits_t10_reset⟩, by decide, by decide⟩,
    ⟨.inl ⟨t10 .data 1 4, rfl, by decide, fun h => (by cases h), by decide⟩, by decide, by decide⟩,
    rfl, by decide⟩

/-! ### Witnesses: invariants -/

/-- A command that completes a frame, from a state that meets the invariant. -/
theorem witness_StepKeepsInvariant :
    Inv (withCommand (.encode [] 1 []) true (made (t10 .reset 1 0))) ∧
    ∃ u, step (withCommand (.encode [] 1 []) true (made (t10 .reset 1 0))) = .next u ∧
      u.response = some ⟨.ok, 1, true, false⟩ :=
  ⟨⟨.inl ⟨_, rfl, fits_t10_reset⟩, by decide, by decide⟩, next_of_outResponse (by decide)⟩

theorem witness_StepKeepsParametersAndRecord :
    ∃ u, step (withCommand .reset true State.reset) = .next u ∧
      u.response = some ⟨.invalidHandle, 0, false, false⟩ := next_of_outResponse (by decide)

/-- A status in the record, a configuration error, and OK. -/
theorem witness_ViolationRecordIsExact :
    (∃ u, exec (.encode [0xAA] 5 []) (made (t10 .data 1 1)) = .next u ∧
      u.response = some ⟨.cursorOutOfRange, 0, false, false⟩) ∧
    (∃ u, exec (.createRom .msbFirst 0) State.reset = .next u ∧
      u.response = some ⟨.configErrorResZero, 0, false, false⟩) ∧
    (∃ u, exec .reset (made (t10 .data 0 4)) = .next u ∧
      u.response = some ⟨.ok, 0, false, false⟩) :=
  ⟨next_of_outResponse (by decide), next_of_outResponse (by decide), next_of_outResponse (by decide)⟩

/-- Each of the three cases: no change, a creation, a disposal. -/
theorem witness_LifecycleMovesOnlyByCreateAndDispose :
    (∃ u, exec .reset (made (t10 .data 0 4)) = .next u ∧ u.regs = heldRegisters (t10 .data 0 0)) ∧
    (∃ u, exec (.createRom .msbFirst 10000000) State.reset = .next u ∧
      u.regs = heldRegisters (t10 .data 0 0)) ∧
    (∃ u, exec .dispose (made (t10 .data 0 4)) = .next u ∧ u.regs = unsetRegisters .disposed) :=
  ⟨next_of_outRegs (by decide), next_of_outRegs (by decide), next_of_outRegs (by decide)⟩

/-! ### Witnesses: CREATE -/

/-- V-T13 and V-T16: the largest counts that fit. -/
theorem witness_CreateFromOperandsConfigures :
    State.reset.regs.lifecycle ≠ .created ∧ (1000000000 : Word) ≠ 0 ∧ State.reset.allocOk = true ∧
    timesT13.t0hNs.toNat * (1000000000 : Word).toNat / 1000000000 = 2 ^ 32 - 1 ∧
    (1000000000 : Word).toNat / 1000000 * timesT13.resetUs.toNat / 2 = 0 ∧
    (1000000000 : Word).toNat / 1000000 * timesT16.resetUs.toNat / 2 = 4294967000 := by decide

/-- V-X7: from DISPOSED, at 3 MHz. -/
theorem witness_CreateFromRomConfigures :
    (unsetRegisters .disposed).lifecycle ≠ .created ∧ (3000000 : Word) ≠ 0 ∧
    Config.reference.rom.t0hNs.toNat * (3000000 : Word).toNat / 1000000000 = 0 ∧
    Config.reference.rom.t0lNs.toNat * (3000000 : Word).toNat / 1000000000 = 2 ∧
    Config.reference.rom.t1hNs.toNat * (3000000 : Word).toNat / 1000000000 = 2 ∧
    Config.reference.rom.t1lNs.toNat * (3000000 : Word).toNat / 1000000000 = 0 ∧
    (3000000 : Word).toNat / 1000000 * Config.reference.rom.resetUs.toNat / 2 = 75 ∧
    State.reset.allocOk = true := by decide

/-- One witness a clause: V-T22, V-T18, V-T17, and V-T16 with the draw false. -/
theorem witness_CreateErrorsComeInOrder :
    (made (t10 .data 0 4)).regs.lifecycle = .created ∧
    (State.reset.regs.lifecycle ≠ .created ∧ (0 : Word) = 0) ∧
    2 ^ 32 - 1 < (1000000000 : Word).toNat / 1000000 * timesT17.resetUs.toNat / 2 ∧
    2 ^ 32 - 1 < (4294967295 : Word).toNat * timesT14.t0hNs.toNat / 1000000000 ∧
    ((1000000000 : Word).toNat / 1000000 * timesT16.resetUs.toNat / 2 ≤ 2 ^ 32 - 1 ∧
      timesT16.t0hNs.toNat * (1000000000 : Word).toNat / 1000000000 = 0 ∧
      ({ State.reset with allocOk := false } : State).allocOk = false) := by decide

/-- V-T10, and V-T3 whose resolution is no multiple of 10^6. -/
theorem witness_ResetTicksFollowTheirOwnFormula :
    deriveTiming ⟨350, 800, 700, 600, 280⟩ 1000000000 =
      .ok ⟨1000000000, ⟨350, 800⟩, ⟨700, 600⟩, 140000⟩ ∧
    (1000000000 : Word).toNat % 1000000 = 0 ∧
    deriveTiming Config.reference.rom 1500000 = .ok ⟨1500000, ⟨0, 1⟩, ⟨1, 0⟩, 25⟩ := by decide

/-- V-T11 and V-T12: the truncation at the last unit. -/
theorem witness_BitTicksFollowTheTickFormula :
    deriveTiming ⟨1000000000, 0, 0, 0, 0⟩ 1 = .ok ⟨1, ⟨1, 0⟩, ⟨0, 0⟩, 0⟩ ∧
    deriveTiming ⟨999999999, 0, 0, 0, 0⟩ 1 = .ok ⟨1, ⟨0, 0⟩, ⟨0, 0⟩, 0⟩ := by decide

/-- V-T9, where the halving truncates, and V-T3, where `res div 10^6` does: 75 ticks of duration, and a
total of 50. -/
theorem witness_SymbolShapes :
    deriveTiming ⟨300, 900, 900, 300, 51⟩ 1000000 = .ok ⟨1000000, ⟨0, 0⟩, ⟨0, 0⟩, 25⟩ ∧
    (1000000 : Word).toNat / 1000000 * (51 : Word).toNat % 2 = 1 ∧
    deriveTiming Config.reference.rom 1500000 = .ok ⟨1500000, ⟨0, 1⟩, ⟨1, 0⟩, 25⟩ ∧
    (1500000 : Word).toNat * (50 : Word).toNat / 1000000 = 75 := by decide

/-! ### Witnesses: the units -/

/-- The cursors at the edges of one byte: its first bit, its last bit, and its end. -/
theorem witness_ConverterCountLaw :
    cursorInRange ⟨0, 0⟩ 1 = true ∧ cursorInRange ⟨0, 7⟩ 1 = true ∧
    cursorInRange ⟨1, 0⟩ 1 = true ∧ cursorInRange ⟨1, 1⟩ 1 = false ∧
    remainingBits 1 ⟨0, 7⟩ = 1 ∧ remainingBits 1 ⟨1, 0⟩ = 0 := by decide

/-- V-C9: from `(DATA,0,4)` with capacity 2, the symbols 0,0. -/
theorem witness_ConverterContentLaw :
    cursorInRange ⟨0, 4⟩ [(0xB0 : Byte)].length = true ∧
    continueData .msbFirst ⟨3, 9⟩ ⟨9, 3⟩ [0xB0] 2 ⟨0, 4⟩ [] =
      .ok ⟨⟨0, 6⟩, [(0, s0), (1, s0)], ⟨2, false, true⟩⟩ := by decide

/-- `sub_full` one unit short, and `sub_complete` with capacity exactly used up (R125). -/
theorem witness_ConverterTestsTheEndFirst :
    continueData .msbFirst ⟨3, 9⟩ ⟨9, 3⟩ [0xB0] 1 ⟨0, 6⟩ [] =
      .ok ⟨⟨0, 7⟩, [(0, s0)], ⟨1, false, true⟩⟩ ∧
    continueData .msbFirst ⟨3, 9⟩ ⟨9, 3⟩ [0xB0] 2 ⟨0, 6⟩ [] =
      .ok ⟨⟨1, 0⟩, [(0, s0), (1, s0)], ⟨2, true, false⟩⟩ := by decide

/-! ### Witnesses: ENCODE -/

theorem made_regs (v : Held) : (made v).regs = heldRegisters v := rfl

/-- Capacity 0 and capacity one short of the bits remaining (V-E7, V-C3). -/
theorem witness_EncodeStopsWhenCapacityRunsOut :
    (made (t10 .data 0 0)).regs = heldRegisters (t10 .data 0 0) ∧ (t10 .data 0 0).phase = .data ∧
    cursorInRange (t10 .data 0 0).cursor [(0x5A : Byte)].length = true ∧
    0 < remainingBits 1 (t10 .data 0 0).cursor ∧ 7 < remainingBits 1 (t10 .data 0 0).cursor := by
  decide

/-- V-C4 and V-E5: five bits left, and none. -/
theorem witness_EncodeStopsAtTheBoundary :
    (made (t10 .data 0 3)).regs = heldRegisters (t10 .data 0 3) ∧ (t10 .data 0 3).phase = .data ∧
    cursorInRange (t10 .data 0 3).cursor [(0x5A : Byte)].length = true ∧
    5 = remainingBits [(0x5A : Byte)].length (t10 .data 0 3).cursor ∧
    0 = remainingBits ([] : List Byte).length (t10 .data 0 0).cursor ∧
    cursorInRange (t10 .data 0 0).cursor ([] : List Byte).length = true := by decide

/-- V-E1 with the least capacity that falls through, and V-R2 with the least capacity in RESET. -/
theorem witness_EncodeCompletesTheFrame :
    (made (t10 .data 0 0)).regs = heldRegisters (t10 .data 0 0) ∧ (t10 .data 0 0).phase = .data ∧
    cursorInRange (t10 .data 0 0).cursor [(0xB0 : Byte)].length = true ∧
    remainingBits [(0xB0 : Byte)].length (t10 .data 0 0).cursor < 9 ∧
    ((made (t10 .reset 1 0)).regs = heldRegisters (t10 .reset 1 0) ∧
      (t10 .reset 1 0).phase = .reset ∧ 1 ≤ 1) := by decide

/-- V-R1. -/
theorem witness_EncodeInResetNeedsCapacity :
    (made (t10 .reset 1 0)).regs = heldRegisters (t10 .reset 1 0) ∧
    (t10 .reset 1 0).phase = .reset := by decide

/-- V-E13 and V-E14, just past the end and one byte past it; V-R5 for phase RESET. -/
theorem witness_EncodeRefusesACursorOutsideData :
    ((t10 .data 1 1).phase = .data ∧
      ¬((t10 .data 1 1).cursor.byteIndex < 1 ∨
        ((t10 .data 1 1).cursor.byteIndex = 1 ∧ (t10 .data 1 1).cursor.bitIndex = 0))) ∧
    ((t10 .data 2 0).phase = .data ∧
      ¬((t10 .data 2 0).cursor.byteIndex < 1 ∨
        ((t10 .data 2 0).cursor.byteIndex = 1 ∧ (t10 .data 2 0).cursor.bitIndex = 0))) ∧
    (t10 .reset 3 0).phase = .reset := by decide

/-- One register unset for each clause; the last from DATA with capacity one more than the bits left. -/
theorem witness_UnsetRegisterReadIsAFault :
    ({ heldRegisters (t10 .data 0 0) with phase := none } : Registers).lifecycle = .created ∧
    ({ heldRegisters (t10 .reset 0 0) with resetTicks := none } : Registers).phase = some .reset ∧
    ({ heldRegisters (t10 .data 0 0) with byteIndex := none } : Registers).phase = some .data ∧
    ({ heldRegisters (t10 .data 0 0) with bitIndex := none } : Registers).byteIndex = some 0 ∧
    (({ heldRegisters (t10 .data 0 0) with bitOrder := none } : Registers).bitIndex = some 0 ∧
      cursorInRange ⟨0, 0⟩ ([] : List Byte).length = true) ∧
    (({ heldRegisters (t10 .data 0 0) with bit1Low := none } : Registers).bitOrder ≠ none ∧
      ({ heldRegisters (t10 .data 0 0) with bit1Low := none } : Registers).bit1Low = none) ∧
    (({ heldRegisters (t10 .data 0 0) with resetTicks := none } : Registers).bit1Low ≠ none ∧
      remainingBits [(0xB0 : Byte)].length ⟨0, 0⟩ < 9 ∧
      8 ≤ remainingBits [(0xB0 : Byte)].length ⟨0, 0⟩) := by
  decide

/-- Both phases; the symbols owed are 9 and 1, so capacity 8, 9, 0 and 1 are the boundaries. -/
theorem witness_EncodeClosedForm :
    ((made (t10 .data 0 0)).regs = heldRegisters (t10 .data 0 0) ∧
      encodeInRange 1 (t10 .data 0 0) ∧ owed 1 (t10 .data 0 0) = 9) ∧
    ((made (t10 .reset 1 0)).regs = heldRegisters (t10 .reset 1 0) ∧
      encodeInRange 0 (t10 .reset 1 0) ∧ owed 0 (t10 .reset 1 0) = 1) :=
  ⟨⟨rfl, fun _ => by decide, by decide⟩, rfl, fun h => (by cases h), by decide⟩

/-- V-E11 and V-E12. -/
theorem witness_EncodeIsCapacityExact :
    (∃ u, exec (.encode [0xFF, 0x00] 5 []) (made (t10 .data 1 0)) = .next u ∧
      u.response = some ⟨.ok, 5, false, true⟩) ∧
    (∃ u, exec (.encode [0xAA] 5 []) (made (t10 .data 1 0)) = .next u ∧
      u.response = some ⟨.ok, 1, true, false⟩) :=
  ⟨next_of_outResponse (by decide), next_of_outResponse (by decide)⟩

/-- An OK ENCODE over a DEST that already holds a symbol beyond `WRITTEN`, and a raised one. -/
theorem witness_EncodeFrame :
    (∃ u, exec (.encode [] 5 [(4, s1)]) (made (t10 .data 0 0)) = .next u ∧
      u.response = some ⟨.ok, 1, true, false⟩) ∧
    (∃ u, exec (.encode [] 5 [(4, s1)]) State.reset = .next u ∧
      u.response = some ⟨.invalidHandle, 0, false, false⟩) :=
  ⟨next_of_outResponse (by decide), next_of_outResponse (by decide)⟩

theorem fresh_t10 : Fresh (t10 .data 0 0) := ⟨rfl, rfl⟩

/-- Both clauses take the same state, with capacity 1 and 0. -/
theorem witness_EmptyFrameIsOneResetSymbol :
    (made (t10 .data 0 0)).regs = heldRegisters (t10 .data 0 0) ∧ Fresh (t10 .data 0 0) :=
  ⟨rfl, fresh_t10⟩

theorem witness_ResetPhaseReadsNoDataAndNoCursor :
    (made (t10 .reset 1 0)).regs = heldRegisters (t10 .reset 1 0) ∧ (t10 .reset 1 0).phase = .reset ∧
    ∃ u, exec (.encode [0xB0] 1 []) (made (t10 .reset 1 0)) = .next u ∧
      u.response = some ⟨.ok, 1, true, false⟩ := ⟨rfl, rfl, next_of_outResponse (by decide)⟩

/-! ### Witnesses: the lifecycle -/

theorem witness_NotCreatedRaisesInvalidHandle :
    State.reset.regs.lifecycle ≠ .created ∧ (unsetRegisters .disposed).lifecycle ≠ .created := by
  decide

/-- For RESET and for DISPOSE: V-X1 and V-X2. -/
theorem witness_ResetReturnsTheCursorToItsStart :
    (made (t10 .data 0 4)).regs.lifecycle = .created ∧
    (made (t10 .reset 1 0)).regs.lifecycle = .created := by decide

theorem witness_DisposeUnsetsEveryRegister : (made (t10 .data 0 4)).regs.lifecycle = .created := by
  decide

theorem witness_RaisedCommandsChangeNothing :
    ∃ u, exec (.encode [0xAA] 5 [(4, s1)]) (made (t10 .data 2 0)) = .next u ∧
      u.response = some ⟨.cursorOutOfRange, 0, false, false⟩ := next_of_outResponse (by decide)

theorem witness_OnlyEncodeTouchesDest :
    ∃ u, exec .dispose { made (t10 .data 0 4) with dest := [(0, s1)] } = .next u ∧
      u.response = some ⟨.ok, 0, false, false⟩ := next_of_outResponse (by decide)

theorem witness_DisposedInstanceTakesOnlyCreate :
    (made (t10 .data 0 4)).regs.lifecycle = .created ∧
    (∃ u, exec .dispose (made (t10 .data 0 4)) = .next u ∧ AllocOk u) ∧
    deriveTiming Config.reference.rom 3000000 = .ok ⟨3000000, ⟨0, 2⟩, ⟨2, 0⟩, 75⟩ :=
  ⟨rfl, ⟨_, rfl, rfl⟩, by decide⟩

/-- Two states that differ in the port, DEST, the response and the record. -/
theorem witness_CommandsDependOnRegistersParametersDrawAndOperands :
    (made (t10 .data 0 0)).regs =
      ({ made (t10 .data 0 0) with
          dest := [(0, s1)], violations := [.illegalCommand],
          port := [transactionOfWord 3] } : State).regs ∧
    ∃ u, exec (.encode [0xB0] 8 []) (made (t10 .data 0 0)) = .next u ∧
      u.response = some ⟨.ok, 8, false, true⟩ := ⟨rfl, next_of_outResponse (by decide)⟩

/-! ### Witnesses: sequences -/

/-- One byte in calls of capacity 8 and 1: exactly the capacity the frame needs. -/
def callsB0 : List Call := [⟨[0xB0], 8, []⟩, ⟨[0xB0], 1, [(0, s0)]⟩]

theorem witness_FrameIsBitComplete :
    (made (t10 .data 0 0)).regs = heldRegisters (t10 .data 0 0) ∧ Fresh (t10 .data 0 0) ∧
    SameData [0xB0] callsB0 ∧ PositiveCap callsB0 ∧ EnoughCap [0xB0] callsB0 ∧
    NoViolation (made (t10 .data 0 0)) :=
  ⟨rfl, fresh_t10, by unfold SameData; decide, by unfold PositiveCap; decide,
    by unfold EnoughCap; decide, rfl⟩

/-- Capacity 8 needs two calls for one byte, and capacity 9 one: 95_test_vectors.md, section 5. -/
theorem witness_FrameCompletesInCeilingCalls :
    (made (t10 .data 0 0)).regs = heldRegisters (t10 .data 0 0) ∧ Fresh (t10 .data 0 0) ∧
    SameData [0xB0] [⟨[0xB0], 8, []⟩, ⟨[0xB0], 8, []⟩] ∧ 1 ≤ 8 ∧
    (∀ c ∈ [(⟨[0xB0], 8, []⟩ : Call), ⟨[0xB0], 8, []⟩], c.cap = 8) ∧
    (8 * 1 + 1 + (8 - 1)) / 8 = 2 ∧ (8 * 1 + 1 + (9 - 1)) / 9 = 1 :=
  ⟨rfl, fresh_t10, by unfold SameData; decide, by decide, by decide, by decide, by decide⟩

/-- The frame of `[0xB0]` in two calls, and in one. -/
theorem witness_FramesDecodeBackToTheirData :
    Fresh (t10 .data 0 0) ∧ Decodable (t10 .data 0 0) ∧ SameData [0xB0] callsB0 ∧
    SameData [0xB0] [⟨[0xB0], 100, []⟩] ∧
    (frameOutput callsB0 (made (t10 .data 0 0))).map (·.1) =
      some [s1, s0, s1, s1, s0, s0, s0, s0, symR] ∧
    (frameOutput [⟨[0xB0], 100, []⟩] (made (t10 .data 0 0))).map (·.1) =
      some [s1, s0, s1, s1, s0, s0, s0, s0, symR] :=
  ⟨fresh_t10, by unfold Decodable; decide, by unfold SameData; decide, by unfold SameData; decide,
    by decide, by decide⟩

/-- A frame with one symbol in it, and an ENCODE that completes it. -/
theorem witness_StepKeepsFramesWellFormed :
    FrameLog.WellFormed ⟨[], some [s1]⟩ ∧
    ∃ u, step (withCommand (.encode [] 1 []) true (made (t10 .reset 1 0))) = .next u ∧
      u.response = some ⟨.ok, 1, true, false⟩ := by
  refine ⟨⟨by simp, fun out h => ?_⟩, next_of_outResponse (by decide)⟩
  cases h
  intro x hx
  rw [List.mem_singleton.mp hx]
  exact ⟨rfl, rfl⟩

/-- RESET and DISPOSE in mid-frame, a CREATE of a DISPOSED instance, and a raised ENCODE (V-E13). -/
theorem witness_FramesAreBoundedByTheCommandsThatRun :
    (withCommand .reset true (made (t10 .data 0 4))).port = [⟨encode .reset, true⟩] ∧
    (withCommand .dispose true (made (t10 .data 0 4))).regs.lifecycle = .created ∧
    (∃ u, step (withCommand (.createRom .msbFirst 3000000) true
        { State.reset with regs := unsetRegisters .disposed }) = .next u ∧
      u.response = some ⟨.ok, 0, false, false⟩) ∧
    (∃ u, step (withCommand (.encode [0xAA] 5 []) true (made (t10 .data 1 1))) = .next u ∧
      u.response = some ⟨.cursorOutOfRange, 0, false, false⟩) ∧
    (∃ u, exec (.encode [0xAA] 5 []) (made (t10 .data 1 1)) = .next u ∧
      u.response = some ⟨.cursorOutOfRange, 0, false, false⟩) :=
  ⟨rfl, rfl, next_of_outResponse (by decide), next_of_outResponse (by decide),
    next_of_outResponse (by decide)⟩

/-- An illegal word and a CREATE between two ENCODE calls that have exactly the capacity needed. -/
theorem witness_FrameIsBitCompleteAmongRaisedCommands :
    Fresh (t10 .data 0 0) ∧
    decode (transactionOfWord 0x40).command = .error .reservedBits ∧
    decode (transactionOfWord 0x21).command = .ok (.createRom .msbFirst 0) ∧
    decode (encode (.encode [0xB0] 8 [])) = .ok (.encode [0xB0] 8 []) ∧
    Instr.wf 32 (.encode [0xB0] 8 []) = true ∧
    ([⟨encode (.encode [0xB0] 8 []), true⟩, transactionOfWord 0x40, transactionOfWord 0x21,
      ⟨encode (.encode [0xB0] 1 []), true⟩].map broughtCap).sum = 8 * 1 + 1 :=
  ⟨fresh_t10, by decide, by decide, by decide, by decide, by decide⟩

/-- A RESET, and a DISPOSE. -/
theorem witness_StepKeepsTheConfigurationUntilDispose :
    (∃ u, step (withCommand .reset true (made (t10 .data 0 4))) = .next u ∧
      u.regs = heldRegisters (t10 .data 0 0)) ∧
    (∃ u, step (withCommand .dispose true (made (t10 .data 0 4))) = .next u ∧
      u.regs = unsetRegisters .disposed) :=
  ⟨next_of_outRegs (by decide), next_of_outRegs (by decide)⟩

/-- Line 3 of P3: a RESET after three symbols, and the frame is cut short. -/
theorem test_frames_P3 :
    (runFrames 1 (withCommand .reset true (made (t10 .data 0 3))) ⟨[], some [s1, s0, s1]⟩).map (·.2) =
      some ⟨[⟨[s1, s0, s1], false⟩], none⟩ := by decide

/-- CREATE, half a frame, RESET. -/
theorem witness_ResetEqualsAFreshCreate :
    (∃ s1, exec (.createRom .msbFirst 10000000) State.reset = .next s1 ∧
      s1.response = some ⟨.ok, 0, false, false⟩) ∧
    Instr.dispose ∉ [Instr.encode [0xB0] 8 []] ∧
    ∃ s2, execAll [.encode [0xB0] 8 []] (made (t10 .data 0 0)) = .next s2 ∧
      s2.regs = heldRegisters (t10 .reset 1 0) :=
  ⟨next_of_outResponse (by decide), by decide, next_of_outRegs (by decide)⟩

end Sys2Proof.Tests
end

section
/-! PROOF. Raised commands (spec/00_scope.md R14, spec/60_exceptions.md R200, R201, R211). -/

namespace Sys2Proof.Machine

@[simp] theorem broughtDest_encode (data : List Byte) (cap : Nat) (dest : Memory) (s : State) :
    broughtDest (.encode data cap dest) s = dest := rfl

/-- A command that is no ENCODE keeps the destination of the last one. -/
theorem broughtDest_of_ne_encode {i : Instr} (h : ∀ data cap dest, i ≠ .encode data cap dest)
    (s : State) : broughtDest i s = s.dest := by
  cases i with
  | encode data cap dest => exact absurd rfl (h data cap dest)
  | create | createRom | reset | dispose => rfl

/-- A command whose response is not OK was raised, with that response's status: each of its other
effects answers OK. -/
theorem exec_raised {i : Instr} {s u : State} {r : Response} (h : exec i s = .next u)
    (hr : u.response = some r) (hne : r.status ≠ .ok) :
    raise r.status { s with dest := broughtDest i s } = .next u ∧ r = errorResponse r.status := by
  have notOk : ∀ x, u.response = some x → x.status ≠ .ok := fun x hx => by
    cases hr.symm.trans hx; exact hne
  rcases exec_next h with ⟨e, -, h⟩ | ⟨-, -, _, _, _, _, -, rfl⟩ |
    ⟨_, _, _, x, _, _, -, -, rfl, -, answer⟩ | ⟨-, -, rfl⟩ | ⟨-, -, rfl⟩
  case inl =>
    obtain ⟨-, -, -, -, -, hresp⟩ := raise_regs h
    cases hr.symm.trans hresp
    exact ⟨h, rfl⟩
  case inr.inr.inl => exact absurd answer.ok (notOk x rfl)
  case inr.inl | inr.inr.inr.inl | inr.inr.inr.inr => exact absurd rfl (notOk okResponse rfl)

/-- Settles O44: a command that does not answer OK was raised, and raising changes only the response and
the record. -/
theorem raisedCommandsChangeNothing : Obligations.RaisedCommandsChangeNothing := by
  intro i s u r h hr hne
  obtain ⟨hraise, hzeros⟩ := exec_raised h hr hne
  obtain ⟨hregs, hconfig, hport, halloc, hdest, -⟩ := raise_regs hraise
  refine ⟨hregs, hconfig, hport, halloc, hzeros, ?encode, ?others⟩
  case encode => rintro data cap dest rfl; exact hdest.trans (broughtDest_encode data cap dest s)
  case others => exact fun hi => hdest.trans (broughtDest_of_ne_encode hi s)

end Sys2Proof.Machine
end

section
/-! PROOF. The state (spec/10_state.md): the invariant of R23, R27 and R29, what every step keeps
(R28, R30, R209), the moves of LIFECYCLE (R21), and the symbols of R32 and R33. -/

namespace Sys2Proof.Machine

/-! ### The invariant -/

/-- A CREATED block under the invariant holds fitting values (R23, R27, R29). -/
theorem Inv.held {s : State} (inv : Inv s) (hl : s.regs.lifecycle = .created) :
    ∃ v, s.regs = heldRegisters v ∧ HeldFits s.config.w v := by
  rcases inv.registers with h | ⟨hne, -⟩
  · exact h
  · exact absurd hl hne

/-- Taking a command off the port touches nothing the invariant speaks of. -/
theorem accept_keeps_inv {s : State} (t : Transaction) (rest : List Transaction) (inv : Inv s) :
    Inv (accept t rest s) :=
  ⟨inv.registers, inv.dest, inv.violations⟩

/-- Raising keeps the invariant: only a contract violation goes into the record (R209). -/
theorem raise_keeps_inv {e : Status} {s u : State} (inv : Inv s) (h : raise e s = .next u) :
    Inv u := by
  rw [raise_next.mp h]
  refine ⟨inv.registers, inv.dest, fun x hx => ?_⟩
  dsimp only at hx
  split at hx
  · next he =>
    rcases List.mem_append.mp hx with hx | hx
    · exact inv.violations x hx
    · rw [List.mem_singleton.mp hx]; exact he
  · exact inv.violations x hx

/-- An ENCODE the port can carry brings DATA of at most `2^W - 1` bytes and a canonical DEST. -/
theorem wf_encode {w : Nat} {data : List Byte} {cap : Nat} {dest : Memory}
    (h : Instr.wf w (.encode data cap dest) = true) :
    data.length ≤ maxOfWidth w ∧ Memory.wf dest := by
  simp only [Instr.wf, Bool.and_eq_true, decide_eq_true_eq] at h
  obtain ⟨⟨⟨hlen, -⟩, hdest⟩, -⟩ := h
  exact ⟨hlen, hdest⟩

/-- The destination a command brings is canonical if the one it finds is. -/
theorem broughtDest_wf {w : Nat} {i : Instr} {s : State} (hs : Memory.wf s.dest)
    (h : i.wf w = true) : Memory.wf (broughtDest i s) := by
  cases i with
  | encode data cap dest => exact (wf_encode h).2
  | create | createRom | reset | dispose => exact hs

/-- A new cursor within its bounds keeps held values fitting. -/
theorem HeldFits.with_cursor {w : Nat} {v : Held} (h : HeldFits w v) {p : Phase} {c : Cursor}
    (hb : c.byteIndex ≤ maxOfWidth w) (hi : p = .reset → c.bitIndex = 0) :
    HeldFits w { v with phase := p, cursor := c } := by
  obtain ⟨-, -, hres⟩ := h
  exact ⟨hb, hi, hres⟩

/-- An OK ENCODE of held registers leaves held registers with another cursor at most (R24, R28). -/
theorem EncodeRegisters.held {data : List Byte} {v : Held} {r : Registers}
    (h : EncodeRegisters data (heldRegisters v) r) :
    ∃ p c, r = heldRegisters { v with phase := p, cursor := c } ∧
      ((p = v.phase ∧ c = v.cursor) ∨
        (c.byteIndex ≤ data.length ∧ (p = .reset → c.bitIndex = 0))) := by
  rcases h with rfl | ⟨p, c, rfl, hb, hi⟩
  · exact ⟨v.phase, v.cursor, rfl, .inl ⟨rfl, rfl⟩⟩
  · exact ⟨p, c, rfl, .inr ⟨hb, hi⟩⟩

/-- An OK ENCODE of a DATA that fits its field keeps held values fitting. -/
theorem EncodeRegisters.fits {w : Nat} {data : List Byte} {v : Held} {r : Registers}
    (h : EncodeRegisters data (heldRegisters v) r) (hv : HeldFits w v)
    (hlen : data.length ≤ maxOfWidth w) : ∃ v', r = heldRegisters v' ∧ HeldFits w v' := by
  obtain ⟨p, c, hr, ⟨rfl, rfl⟩ | ⟨hb, hi⟩⟩ := h.held
  · exact ⟨v, hr, hv⟩
  · exact ⟨_, hr, hv.with_cursor (hb.trans hlen) hi⟩

/-- Every command the port can carry keeps the invariant. -/
theorem exec_keeps_inv {i : Instr} {s u : State} (inv : Inv s) (hwf : i.wf s.config.w = true)
    (h : exec i s = .next u) : Inv u := by
  rcases exec_next h with ⟨e, -, h⟩ | ⟨-, -, order, _, _, t, ht, rfl⟩ |
    ⟨data, cap, dest, r, regs, m, rfl, hl, rfl, hregs, answer⟩ | ⟨-, hl, rfl⟩ | ⟨-, -, rfl⟩
  case inl =>
    exact raise_keeps_inv (s := { s with dest := broughtDest i s })
      ⟨inv.registers, broughtDest_wf inv.dest hwf, inv.violations⟩ h
  case inr.inl =>
    obtain ⟨hres, hne⟩ := deriveTiming_resHz ht
    have fits : HeldFits s.config.w ⟨.data, startCursor, order, t⟩ :=
      ⟨Nat.zero_le _, nofun, hres ▸ hne⟩
    exact ⟨.inl ⟨_, createdRegisters_eq_held order t, fits⟩, inv.dest, inv.violations⟩
  case inr.inr.inl =>
    obtain ⟨v, hv, hfits⟩ := inv.held hl
    obtain ⟨hlen, hdest⟩ := wf_encode hwf
    exact ⟨.inl ((hv ▸ hregs).fits hfits hlen), answer.wf hdest, inv.violations⟩
  case inr.inr.inr.inl =>
    obtain ⟨v, hv, hfits⟩ := inv.held hl
    refine ⟨.inl ⟨_, ?_, hfits.with_cursor (p := .data) (c := startCursor) (Nat.zero_le _) nofun⟩,
      inv.dest, inv.violations⟩
    rw [hv, writeCursor_held]
  case inr.inr.inr.inr =>
    exact ⟨.inr ⟨nofun, rfl⟩, inv.dest, inv.violations⟩

/-- Settles O13: a wait changes nothing, an illegal word is raised, and every command that runs
keeps the invariant. -/
theorem stepKeepsInvariant : Obligations.StepKeepsInvariant := by
  intro s u inv h
  rcases step_next h with ⟨-, rfl⟩ | ⟨t, rest, -, ⟨e, -, h⟩ | ⟨i, -, hwf, h⟩⟩
  · exact inv
  · exact raise_keeps_inv (accept_keeps_inv t rest inv) h
  · exact exec_keeps_inv (accept_keeps_inv t rest inv) hwf h

/-- A command that decodes and whose operands can be expressed runs (R70). -/
theorem runCommand_runs {c : Command} {i : Instr} {s : State} (hd : decode c = .ok i)
    (hwf : i.wf s.config.w = true) : runCommand c s = exec i s := by
  simp only [runCommand, hd, hwf, if_true]

/-- A command with operands that cannot be expressed has no step (R77). -/
theorem runCommand_refused {c : Command} {i : Instr} {s : State} (hd : decode c = .ok i)
    (hwf : i.wf s.config.w = false) : runCommand c s = .refused .operandNotExpressible := by
  simp only [runCommand, hd, hwf, Bool.false_eq_true, if_false]

/-- A command that does not decode is raised (R82). -/
theorem runCommand_illegal {c : Command} {e : Illegal} {s : State} (hd : decode c = .error e) :
    runCommand c s = raise .illegalCommand s := by
  simp only [runCommand, hd]

/-- Settles O10: under the invariant the registers are all held or LIFECYCLE is not CREATED, so
every command that runs answers a next state. -/
theorem stepStopsOnlyOnInexpressibleOperands :
    Obligations.StepStopsOnlyOnInexpressibleOperands := by
  intro s inv
  have ready : (∃ v, s.regs = heldRegisters v) ∨ s.regs.lifecycle ≠ .created :=
    inv.registers.imp (fun ⟨v, hv, _⟩ => ⟨v, hv⟩) And.left
  cases hp : s.port with
  | nil => exact .inl ⟨s, by simp only [step, nextCommand, hp]⟩
  | cons t rest =>
    rw [step_cons hp]
    cases hd : decode t.command with
    | error e => exact .inl ⟨_, runCommand_illegal hd⟩
    | ok i =>
      cases hwf : i.wf s.config.w with
      | true =>
        rw [runCommand_runs (s := accept t rest s) hd hwf]
        exact .inl (exec_total i ready)
      | false =>
        exact .inr ⟨t, rest, i, rfl, hd, hwf, runCommand_refused (s := accept t rest s) hd hwf⟩

/-! ### What every step keeps -/

/-- Raising adds to the end of the record at most (R209). -/
theorem raise_violations_prefix {e : Status} {s u : State} (h : raise e s = .next u) :
    s.violations <+: u.violations := by
  rw [raise_next.mp h]
  dsimp only
  split
  · exact List.prefix_append _ _
  · exact List.prefix_rfl

/-- No command changes the parameters, and none takes back a recorded violation (R30, R209). -/
theorem exec_keeps_parameters_and_record {i : Instr} {s u : State} (h : exec i s = .next u) :
    u.config = s.config ∧ s.violations <+: u.violations := by
  rcases exec_next h with ⟨e, -, h⟩ | ⟨-, -, _, _, _, _, -, rfl⟩ |
    ⟨_, _, _, _, _, _, -, -, rfl, -, -⟩ | ⟨-, -, rfl⟩ | ⟨-, -, rfl⟩
  case inl =>
    obtain ⟨-, hconfig, -⟩ := raise_regs h
    exact ⟨hconfig, raise_violations_prefix (s := { s with dest := broughtDest i s }) h⟩
  all_goals exact ⟨rfl, List.prefix_rfl⟩

/-- Settles O14: neither a wait, an illegal word nor a command touches the parameters or shortens
the record. -/
theorem stepKeepsParametersAndRecord : Obligations.StepKeepsParametersAndRecord := by
  intro s u h
  rcases step_next h with ⟨-, rfl⟩ | ⟨t, rest, -, ⟨e, -, h⟩ | ⟨i, -, -, h⟩⟩
  · exact ⟨rfl, List.prefix_rfl⟩
  · obtain ⟨-, hconfig, -⟩ := raise_regs h
    exact ⟨hconfig, raise_violations_prefix (s := accept t rest s) h⟩
  · exact exec_keeps_parameters_and_record (s := accept t rest s) h

/-- An OK ENCODE leaves the life stage. -/
theorem EncodeRegisters.lifecycle {data : List Byte} {r r' : Registers}
    (h : EncodeRegisters data r r') : r'.lifecycle = r.lifecycle := by
  rcases h with rfl | ⟨p, c, rfl, -⟩ <;> rfl

/-- Settles O16: of the effects a command can have, only an OK CREATE and an OK DISPOSE write
LIFECYCLE. -/
theorem lifecycleMovesOnlyByCreateAndDispose :
    Obligations.LifecycleMovesOnlyByCreateAndDispose := by
  intro i s u h
  rcases exec_next h with ⟨e, -, h⟩ | ⟨hi, hl, _, _, _, _, -, rfl⟩ |
    ⟨_, _, _, _, _, _, -, -, rfl, hregs, -⟩ | ⟨-, -, rfl⟩ | ⟨hi, hl, rfl⟩
  case inl =>
    obtain ⟨hregs, -⟩ := raise_regs h
    exact .inl (congrArg Registers.lifecycle hregs)
  case inr.inl => exact .inr (.inl ⟨hi, hl, rfl⟩)
  case inr.inr.inl => exact .inl hregs.lifecycle
  case inr.inr.inr.inl => exact .inl rfl
  case inr.inr.inr.inr => exact .inr (.inr ⟨hi, hl, rfl⟩)

/-- A command to a CREATED block with all registers set changes the cursor at most, unless it is a
DISPOSE, which unsets them (R28, R110, R172, R233). -/
theorem exec_held {i : Instr} {s u : State} {v : Held} (hv : s.regs = heldRegisters v)
    (h : exec i s = .next u) :
    (∃ p c, u.regs = heldRegisters { v with phase := p, cursor := c }) ∨
      (i = .dispose ∧ u.regs = unsetRegisters .disposed) := by
  have hl : s.regs.lifecycle = .created := by rw [hv, heldRegisters_lifecycle]
  rcases exec_next h with ⟨e, -, h⟩ | ⟨-, hne, -⟩ |
    ⟨_, _, _, _, _, _, -, -, rfl, hregs, -⟩ | ⟨-, -, rfl⟩ | ⟨hi, -, rfl⟩
  case inl =>
    obtain ⟨hregs, -⟩ := raise_regs h
    exact .inl ⟨v.phase, v.cursor, hregs.trans hv⟩
  case inr.inl => exact absurd hl hne
  case inr.inr.inl =>
    obtain ⟨p, c, hr, -⟩ := (hv ▸ hregs).held
    exact .inl ⟨p, c, hr⟩
  case inr.inr.inr.inl =>
    refine .inl ⟨.data, startCursor, ?_⟩
    rw [hv, writeCursor_held]
  case inr.inr.inr.inr => exact .inr ⟨hi, rfl⟩

/-- Settles O55: a wait and an illegal word leave the registers, and a command changes the cursor at
most or is a DISPOSE. -/
theorem stepKeepsTheConfigurationUntilDispose :
    Obligations.StepKeepsTheConfigurationUntilDispose := by
  intro s u v hv h
  rcases step_next h with ⟨-, rfl⟩ | ⟨t, rest, hp, ⟨e, -, h⟩ | ⟨i, hd, -, h⟩⟩
  · exact .inl ⟨v.phase, v.cursor, hv⟩
  · obtain ⟨hregs, -⟩ := raise_regs h
    exact .inl ⟨v.phase, v.cursor, hregs.trans hv⟩
  · rcases exec_held (s := accept t rest s) hv h with hcursor | ⟨rfl, hunset⟩
    · exact .inl hcursor
    · exact .inr ⟨hunset, t, rest, hp, hd⟩

/-! ### The frame of ENCODE -/

/-- An OK ENCODE writes no register but PHASE, BYTE_INDEX and BIT_INDEX (R24, R28). -/
theorem EncodeRegisters.frame {data : List Byte} {r r' : Registers}
    (h : EncodeRegisters data r r') :
    r' = { r with
      phase := r'.phase, byteIndex := r'.byteIndex, bitIndex := r'.bitIndex } := by
  rcases h with rfl | ⟨p, c, rfl, -⟩ <;> rfl

/-- Settles O38: a raised ENCODE leaves the registers and the DEST it brought, and an OK one changes
the cursor and positions below `WRITTEN` at most. -/
theorem encodeFrame : Obligations.EncodeFrame := by
  intro s u data cap dest h
  rcases exec_next h with ⟨e, -, h⟩ | ⟨hi, -⟩ |
    ⟨_, _, _, r, regs, m, hi, -, rfl, hregs, answer⟩ | ⟨hi, -⟩ | ⟨hi, -⟩
  case inl =>
    obtain ⟨hregs, hconfig, hport, halloc, hdest, hresp⟩ := raise_regs h
    refine ⟨by rw [hregs], hconfig, hport, halloc, _, hresp, fun j _ => ?_⟩
    rw [hdest, broughtDest_encode]
  case inr.inl => rcases hi with ⟨_, _, _, hi⟩ | ⟨_, _, hi⟩ <;> cases hi
  case inr.inr.inl =>
    cases hi
    exact ⟨hregs.frame, rfl, rfl, rfl, r, rfl, answer.frame⟩
  case inr.inr.inr.inl | inr.inr.inr.inr => cases hi

/-- ENCODE of held registers in phase RESET, with no capacity (R142, R160). -/
theorem exec_encode_reset_full {s : State} {v : Held} (hv : s.regs = heldRegisters v)
    (hp : v.phase = .reset) (data : List Byte) {cap : Nat} (hc : cap = 0) (dest : Memory) :
    exec (.encode data cap dest) s =
      .next { s with response := some (bufferFullResponse 0), dest := dest } := by
  have ht : s.regs.resetTicks = some v.timing.resetTicks := by rw [hv, heldRegisters_resetTicks]
  exact (execEncode_reset hv hp).trans
    (encodeResetStep_full (s := { s with dest := dest }) ht (by omega))

/-- ENCODE of held registers in phase RESET, with capacity (R161). -/
theorem exec_encode_reset_complete {s : State} {v : Held} (hv : s.regs = heldRegisters v)
    (hp : v.phase = .reset) (data : List Byte) {cap : Nat} (hc : 1 ≤ cap) (dest : Memory) :
    exec (.encode data cap dest) s =
      .next
        { s with
          regs := heldRegisters { v with phase := .data, cursor := startCursor }
          response := some (completeResponse 1)
          dest := memWrite 0 (resetSym v.timing.resetTicks) dest } := by
  have ht : s.regs.resetTicks = some v.timing.resetTicks := by rw [hv, heldRegisters_resetTicks]
  rw [← writeCursor_held, ← hv]
  exact (execEncode_reset hv hp).trans
    (encodeResetStep_complete (s := { s with dest := dest }) ht (by omega))

/-- Settles O40: in phase RESET an ENCODE reads RESET_TICKS, `CAP` and DEST only, and with capacity
it writes the whole cursor. -/
theorem resetPhaseReadsNoDataAndNoCursor : Obligations.ResetPhaseReadsNoDataAndNoCursor := by
  intro s u v c data data' cap dest hv hp h
  rcases Nat.eq_zero_or_pos cap with h0 | h1
  · cases (exec_encode_reset_full hv hp data h0 dest).symm.trans h
    exact ⟨_, exec_encode_reset_full (s := { s with regs := heldRegisters { v with cursor := c } })
      rfl hp data' h0 dest, rfl, rfl, by omega⟩
  · cases (exec_encode_reset_complete hv hp data h1 dest).symm.trans h
    exact ⟨_, exec_encode_reset_complete
      (s := { s with regs := heldRegisters { v with cursor := c } }) rfl hp data' h1 dest,
      rfl, rfl, fun _ => rfl⟩

/-! ### Reads of unset registers -/

/-- ENCODE of a CREATED block in phase RESET is step 2 (R159). -/
theorem execEncode_of_phase_reset {s : State} (data : List Byte) (cap : Nat) (dest : Memory)
    (hl : s.regs.lifecycle = .created) (hp : s.regs.phase = some .reset) :
    execEncode data cap dest s = encodeResetStep cap 0 { s with dest := dest } := by
  simp only [execEncode, encodeWithDest, hl, hp, if_true, readReg_some]

/-- ENCODE of a CREATED block in phase DATA reads the cursor and checks its range (R155, R166). -/
theorem execEncode_of_phase_data {s : State} (data : List Byte) (cap : Nat) (dest : Memory)
    (hl : s.regs.lifecycle = .created) (hp : s.regs.phase = some .data) :
    execEncode data cap dest s = readCursor s.regs fun c =>
      if cursorInRange c data.length then encodeDataStep data cap c { s with dest := dest }
      else raise .cursorOutOfRange { s with dest := dest } := by
  simp only [execEncode, encodeWithDest, hl, hp, if_true, readReg_some]

/-- ENCODE of a CREATED block in phase DATA, its cursor set and in range, is step 1. -/
theorem execEncode_data_of_set {s : State} {data : List Byte} {cap : Nat} {dest : Memory} {b : Nat}
    {i : Fin 8} (hl : s.regs.lifecycle = .created) (hp : s.regs.phase = some .data)
    (hb : s.regs.byteIndex = some b) (hi : s.regs.bitIndex = some i)
    (hc : cursorInRange ⟨b, i⟩ data.length = true) :
    execEncode data cap dest s = encodeDataStep data cap ⟨b, i⟩ { s with dest := dest } := by
  rw [execEncode_of_phase_data data cap dest hl hp, readCursor, hb, hi, readReg_some, readReg_some,
    if_pos hc]

/-- Reading the shapes with one of their registers unset is a fault that names one of the four
(R23). -/
theorem readShapes_unset {r : Registers} (k : PulseShape → PulseShape → Result)
    (h : r.bit0High = none ∨ r.bit0Low = none ∨ r.bit1High = none ∨ r.bit1Low = none) :
    ∃ id ∈ [RegId.bit0High, .bit0Low, .bit1High, .bit1Low],
      readShapes r k = .fault (.unsetRegister id) := by
  unfold readShapes
  cases h0 : r.bit0High with
  | none => exact ⟨.bit0High, by decide, rfl⟩
  | some _ =>
    cases l0 : r.bit0Low with
    | none => exact ⟨.bit0Low, by decide, rfl⟩
    | some _ =>
      cases h1 : r.bit1High with
      | none => exact ⟨.bit1High, by decide, rfl⟩
      | some _ =>
        cases l1 : r.bit1Low with
        | none => exact ⟨.bit1Low, by decide, rfl⟩
        | some _ => simp [h0, l0, h1, l1] at h

/-- Reading the shapes with their four registers set gives two shapes. -/
theorem readShapes_set {r : Registers} (h0 : r.bit0High ≠ none) (l0 : r.bit0Low ≠ none)
    (h1 : r.bit1High ≠ none) (l1 : r.bit1Low ≠ none) :
    ∃ bit0 bit1, ∀ k, readShapes r k = k bit0 bit1 := by
  obtain ⟨a, ha⟩ := Option.ne_none_iff_exists'.mp h0
  obtain ⟨b, hb⟩ := Option.ne_none_iff_exists'.mp l0
  obtain ⟨c, hc⟩ := Option.ne_none_iff_exists'.mp h1
  obtain ⟨d, hd⟩ := Option.ne_none_iff_exists'.mp l1
  exact ⟨⟨a, b⟩, ⟨c, d⟩, fun k => by simp [readShapes, ha, hb, hc, hd]⟩

/-- With RESET_TICKS unset, step 1 of ENCODE faults if it falls through to the reset symbol, and
answers a next state if the capacity ends it before (R155 to R158, R165). -/
theorem encodeDataStep_resetTicks_unset {s : State} {data : List Byte} {cap : Nat} {c : Cursor}
    {order : BitOrder} {bit0 bit1 : PulseShape} (hc : cursorInRange c data.length = true)
    (ho : s.regs.bitOrder = some order) (hs : ∀ k, readShapes s.regs k = k bit0 bit1)
    (ht : s.regs.resetTicks = none) :
    (remainingBits data.length c < cap →
      encodeDataStep data cap c s = .fault (.unsetRegister .resetTicks)) ∧
    (cap ≤ remainingBits data.length c → ∃ u, encodeDataStep data cap c s = .next u) := by
  obtain ⟨x, hx, hout, -⟩ := continueData_spec order bit0 bit1 data cap c s.dest hc
  simp only [encodeDataStep, ho, readReg_some, hs, hx, hout, decide_eq_true_eq]
  constructor
  · intro hfall
    rw [if_neg (by omega), if_neg (by omega)]
    simp only [encodeResetStep, writeCursor_resetTicks, ht, readReg_none]
  · intro hcap
    split
    · exact ⟨_, rfl⟩
    · rw [if_pos (by omega)]; exact ⟨_, rfl⟩

/-- Settles O35: each clause runs ENCODE up to the first register it finds unset. -/
theorem unsetRegisterReadIsAFault : Obligations.UnsetRegisterReadIsAFault := by
  intro s data cap dest hl
  refine ⟨?phase, ?resetTicks, ?byteIndex, ?bitIndex, ?bitOrder, ?shape, ?fallThrough⟩
  case phase =>
    intro hp
    simp only [exec, execEncode, encodeWithDest, hl, hp, if_true, readReg_none]
  case resetTicks =>
    intro hp ht
    rw [exec, execEncode_of_phase_reset data cap dest hl hp, encodeResetStep, ht, readReg_none]
  case byteIndex =>
    intro hp hb
    rw [exec, execEncode_of_phase_data data cap dest hl hp, readCursor, hb, readReg_none]
  case bitIndex =>
    intro b hp hb hi
    rw [exec, execEncode_of_phase_data data cap dest hl hp, readCursor, hb, hi, readReg_some,
      readReg_none]
  case bitOrder =>
    intro b i hp hb hi hc ho
    rw [exec, execEncode_data_of_set hl hp hb hi hc, encodeDataStep, ho, readReg_none]
  case shape =>
    intro b i hp hb hi hc ho hshape
    obtain ⟨order, ho⟩ := Option.ne_none_iff_exists'.mp ho
    simp only [exec, execEncode_data_of_set hl hp hb hi hc, encodeDataStep, ho, readReg_some]
    exact readShapes_unset _ hshape
  case fallThrough =>
    intro b i hp hb hi hc ho h0 l0 h1 l1 ht
    obtain ⟨order, ho⟩ := Option.ne_none_iff_exists'.mp ho
    obtain ⟨bit0, bit1, hs⟩ := readShapes_set h0 l0 h1 l1
    simp only [exec, execEncode_data_of_set hl hp hb hi hc]
    exact encodeDataStep_resetTicks_unset (s := { s with dest := dest }) hc ho hs ht

/-! ### What a command depends on (R34, R36, R53) -/

/-- Two states that a caller sees alike after a command: the same registers and response, and the
same symbols in the positions the response counts as written. -/
structure SameOutput (u u' : State) : Prop where
  regs : u'.regs = u.regs
  response : u'.response = u.response
  written : ∀ r, u.response = some r → ∀ j, j < r.written → memRead j u'.dest = memRead j u.dest

/-- If the first of two results is a next state, the second is one with the same output. -/
def SameEffect (a b : Result) : Prop :=
  ∀ u, a = .next u → ∃ u', b = .next u' ∧ SameOutput u u'

/-- Responding alike has the same effect if the registers and the positions written agree. -/
theorem respond_sameEffect {r : Response} {s t : State} (hregs : s.regs = t.regs)
    (hdest : ∀ j, j < r.written → memRead j t.dest = memRead j s.dest) :
    SameEffect (respond r s) (respond r t) := by
  rintro _ ⟨⟩
  refine ⟨_, rfl, hregs.symm, rfl, ?_⟩
  rintro _ ⟨⟩
  exact hdest

/-- An OK response with nothing written has the same effect from equal registers. -/
theorem respond_ok_sameEffect {s t : State} (hregs : s.regs = t.regs) :
    SameEffect (respond okResponse s) (respond okResponse t) :=
  respond_sameEffect hregs fun _ hj => absurd hj (Nat.not_lt_zero _)

/-- Raising has the same effect from equal registers: no position is written (R14). -/
theorem raise_sameEffect {e : Status} {s t : State} (hregs : s.regs = t.regs) :
    SameEffect (raise e s) (raise e t) := by
  rintro _ ⟨⟩
  refine ⟨_, rfl, hregs.symm, rfl, ?_⟩
  rintro _ ⟨⟩ j hj
  exact absurd hj (Nat.not_lt_zero j)

/-- Reading one register has the same effect if going on with its value has. -/
theorem readReg_sameEffect {α : Type} {r : Option α} {id : RegId} {k k' : α → Result}
    (h : ∀ a, SameEffect (k a) (k' a)) : SameEffect (readReg r id k) (readReg r id k') := by
  cases r with
  | none => intro u hu; rw [readReg_none] at hu; cases hu
  | some a => rw [readReg_some, readReg_some]; exact h a

theorem readCursor_sameEffect {r : Registers} {k k' : Cursor → Result}
    (h : ∀ c, SameEffect (k c) (k' c)) : SameEffect (readCursor r k) (readCursor r k') :=
  readReg_sameEffect fun _ => readReg_sameEffect fun _ => h _

theorem readShapes_sameEffect {r : Registers} {k k' : PulseShape → PulseShape → Result}
    (h : ∀ bit0 bit1, SameEffect (k bit0 bit1) (k' bit0 bit1)) :
    SameEffect (readShapes r k) (readShapes r k') :=
  readReg_sameEffect fun _ => readReg_sameEffect fun _ => readReg_sameEffect fun _ =>
    readReg_sameEffect fun _ => h _ _

/-- CREATE depends on its operands, the life stage and the draw (R108, R109). -/
theorem createWith_sameEffect (order : BitOrder) (res : Word) (k : TimingConstants) {s t : State}
    (hregs : s.regs = t.regs) (halloc : s.allocOk = t.allocOk) :
    SameEffect (createWith order res k s) (createWith order res k t) := by
  simp only [createWith, ← hregs, ← halloc]
  split
  · exact raise_sameEffect hregs
  · split
    · exact raise_sameEffect hregs
    · split
      · exact respond_ok_sameEffect rfl
      · exact raise_sameEffect hregs

/-- Step 2 of ENCODE writes the same symbol whatever DEST holds, after `n` positions that agree. -/
theorem encodeResetStep_sameEffect (cap n : Nat) {s t : State} (hregs : s.regs = t.regs)
    (hdest : ∀ j, j < n → memRead j t.dest = memRead j s.dest) :
    SameEffect (encodeResetStep cap n s) (encodeResetStep cap n t) := by
  simp only [encodeResetStep, ← hregs]
  refine readReg_sameEffect fun ticks => ?_
  by_cases hc : cap - n = 0
  · simp only [continueReset, if_pos hc]
    exact respond_sameEffect rfl hdest
  · simp only [continueReset, if_neg hc]
    refine respond_sameEffect rfl fun j hj => ?_
    simp only [memRead_memWrite]
    split
    · rfl
    · have : j < n + 1 := hj
      exact hdest j (by omega)

/-- The converter reads no DEST: from a cursor in range it leaves the same cursor and outcome over
any two destinations, and the same symbols in the positions it counts (R53, R131). -/
theorem continueData_reads_no_dest (order : BitOrder) (bit0 bit1 : PulseShape) (data : List Byte)
    (cap : Nat) {c : Cursor} (dest dest' : Memory) (hc : cursorInRange c data.length = true) :
    ∃ x x', continueData order bit0 bit1 data cap c dest = .ok x ∧
      continueData order bit0 bit1 data cap c dest' = .ok x' ∧
      x'.cursor = x.cursor ∧ x'.outcome = x.outcome ∧
      ∀ j, j < x.outcome.count → memRead j x'.dest = memRead j x.dest := by
  obtain ⟨x, hx, hout, hpos, -, hmem, -⟩ := continueData_spec order bit0 bit1 data cap c dest hc
  obtain ⟨x', hx', hout', hpos', -, hmem', -⟩ :=
    continueData_spec order bit0 bit1 data cap c dest' hc
  refine ⟨x, x', hx, hx', bitPosition_inj (hpos'.trans hpos.symm), hout'.trans hout.symm,
    fun j hj => ?_⟩
  rw [hout] at hj
  rw [hmem, hmem', if_pos hj, if_pos hj]

/-- Step 1 of ENCODE reads no DEST (R53). -/
theorem encodeDataStep_sameEffect {data : List Byte} (cap : Nat) {c : Cursor} {s t : State}
    (hregs : s.regs = t.regs) (hc : cursorInRange c data.length = true) :
    SameEffect (encodeDataStep data cap c s) (encodeDataStep data cap c t) := by
  simp only [encodeDataStep, ← hregs]
  refine readReg_sameEffect fun order => readShapes_sameEffect fun bit0 bit1 => ?_
  obtain ⟨x, x', hx, hx', hcursor, hout, hdest⟩ :=
    continueData_reads_no_dest order bit0 bit1 data cap s.dest t.dest hc
  simp only [hx, hx', hcursor, hout]
  split
  · exact respond_sameEffect rfl hdest
  · split
    · exact respond_sameEffect rfl hdest
    · exact encodeResetStep_sameEffect cap _ rfl hdest

/-- ENCODE depends on the registers and its operands but DEST. -/
theorem encodeWithDest_sameEffect (data : List Byte) (cap : Nat) {s t : State}
    (hregs : s.regs = t.regs) :
    SameEffect (encodeWithDest data cap s) (encodeWithDest data cap t) := by
  simp only [encodeWithDest, ← hregs]
  split
  · refine readReg_sameEffect fun phase => ?_
    cases phase with
    | data =>
      refine readCursor_sameEffect fun c => ?_
      split
      · next hc => exact encodeDataStep_sameEffect cap hregs hc
      · exact raise_sameEffect hregs
    | reset =>
      exact encodeResetStep_sameEffect cap 0 hregs fun j hj => absurd hj (Nat.not_lt_zero j)
  · exact raise_sameEffect hregs

/-- Every command has the same effect in two states with the same registers, parameters and draw. -/
theorem exec_sameEffect (i : Instr) {s t : State} (hregs : s.regs = t.regs)
    (hconfig : s.config = t.config) (halloc : s.allocOk = t.allocOk) :
    SameEffect (exec i s) (exec i t) := by
  cases i with
  | create order res times => exact createWith_sameEffect order res times hregs halloc
  | createRom order res =>
    simp only [exec, execCreateRom, romConstants, ← hconfig]
    exact createWith_sameEffect order res _ hregs halloc
  | encode data cap dest => exact encodeWithDest_sameEffect data cap hregs
  | reset =>
    simp only [exec, execReset, ← hregs]
    split
    · exact respond_ok_sameEffect rfl
    · exact raise_sameEffect hregs
  | dispose =>
    simp only [exec, execDispose, ← hregs]
    split
    · exact respond_ok_sameEffect rfl
    · exact raise_sameEffect hregs

/-- Settles O47: the two states see the same effect of every command, and of ENCODE over any DEST.
-/
theorem commandsDependOnRegistersParametersDrawAndOperands :
    Obligations.CommandsDependOnRegistersParametersDrawAndOperands := by
  intro s t hregs hconfig halloc
  refine ⟨fun i u h => ?_, fun data cap dest dest' u r h hr => ?_⟩
  · obtain ⟨u', hu', out⟩ := exec_sameEffect i hregs hconfig halloc u h
    exact ⟨u', hu', out.regs, out.response⟩
  · have same : SameEffect (exec (.encode data cap dest) s) (exec (.encode data cap dest') t) :=
      encodeWithDest_sameEffect data cap (s := { s with dest := dest })
        (t := { t with dest := dest' }) hregs
    obtain ⟨u', hu', out⟩ := same u h
    exact ⟨u', hu', out.regs, out.response.trans hr, out.written r hr⟩

/-! ### Symbols -/

/-- Twice the count of R105 is the reset duration in whole ticks, less what its divisions truncate.
-/
theorem two_mul_resetTickCount (us res : Nat) :
    2 * resetTickCount us res + res / 1000000 * us % 2 + res % 1000000 * us / 1000000 =
      res * us / 1000000 := by
  have halves : 2 * resetTickCount us res + res / 1000000 * us % 2 = res / 1000000 * us :=
    Nat.div_add_mod _ 2
  have total : res * us = 1000000 * (res / 1000000 * us) + res % 1000000 * us := by
    rw [← Nat.mul_assoc, ← Nat.add_mul, Nat.div_add_mod]
  rw [halves, total, Nat.mul_add_div (by decide)]

/-- A derived RESET_TICKS is the count of R105: it fits, so nothing wraps (R106). -/
theorem deriveTiming_resetTicks {k : TimingConstants} {res : Word} {t : TimingConfig}
    (h : deriveTiming k res = .ok t) :
    t.resetTicks.toNat = resetTickCount k.resetUs.toNat res.toNat := by
  obtain ⟨-, hfit, rfl⟩ := deriveTiming_ok.mp h
  obtain ⟨-, -, -, -, hrst⟩ := (countsFit_iff _).mp hfit
  exact Nat.mod_eq_of_lt (Nat.lt_of_le_sub_one (by decide) hrst)

/-- Settles O28: the shapes are the definitions', and the total low time is twice the count of R105.
-/
theorem symbolShapes : Obligations.SymbolShapes := by
  refine ⟨fun _ _ => ⟨rfl, rfl⟩, fun ticks => ⟨rfl, (Nat.two_mul _).symm⟩, fun k res t h => ?_⟩
  have total : (resetSym t.resetTicks).durationHigh.toNat +
      (resetSym t.resetTicks).durationLow.toNat =
        2 * resetTickCount k.resetUs.toNat res.toNat := by
    rw [← deriveTiming_resetTicks h]; exact (Nat.two_mul _).symm
  rw [total, two_mul_resetTickCount]

end Sys2Proof.Machine
end

section
/-! PROOF. Memory (spec/20_memory.md): what no command changes of the surroundings (R30, R50, R52), and
the order of the bits of a byte (R56, R57). -/

namespace Sys2Proof.Machine

/-- Whatever a command does, the parameters, the port and the draw stay as they were (R30, R50). -/
theorem exec_keeps_surroundings {i : Instr} {s u : State} (h : exec i s = .next u) :
    u.config = s.config ∧ u.port = s.port ∧ u.allocOk = s.allocOk := by
  rcases exec_next h with ⟨e, -, h⟩ | ⟨-, -, _, _, _, _, -, rfl⟩ |
    ⟨_, _, _, _, _, _, -, -, rfl, -, -⟩ | ⟨-, -, rfl⟩ | ⟨-, -, rfl⟩
  case inl =>
    obtain ⟨-, hconfig, hport, halloc, -⟩ := raise_regs h
    exact ⟨hconfig, hport, halloc⟩
  all_goals exact ⟨rfl, rfl, rfl⟩

/-- A command that is no ENCODE leaves the destination of the last one: raised, it brings no other, and
no effect but that of an OK ENCODE writes DEST (R50). -/
theorem exec_keeps_dest {i : Instr} {s u : State} (hi : ∀ data cap dest, i ≠ .encode data cap dest)
    (h : exec i s = .next u) : u.dest = s.dest := by
  rcases exec_next h with ⟨e, -, h⟩ | ⟨-, -, _, _, _, _, -, rfl⟩ |
    ⟨data, cap, dest, _, _, _, hencode, -⟩ | ⟨-, -, rfl⟩ | ⟨-, -, rfl⟩
  case inl =>
    obtain ⟨-, -, -, -, hdest, -⟩ := raise_regs h
    exact hdest.trans (broughtDest_of_ne_encode hi s)
  case inr.inr.inl => exact absurd hencode (hi data cap dest)
  case inr.inl | inr.inr.inr.inl | inr.inr.inr.inr => rfl

/-- Settles O45: the surroundings stay under every command, and DEST under all but ENCODE. -/
theorem onlyEncodeTouchesDest : Obligations.OnlyEncodeTouchesDest := by
  intro i s u h
  obtain ⟨hconfig, hport, halloc⟩ := exec_keeps_surroundings h
  exact ⟨hconfig, hport, halloc, fun hi => exec_keeps_dest hi h⟩

/-- The bits taken at BIT_INDEX 0 to 7 are those of the byte written out in the configured order (R57). -/
theorem map_bitOf_finRange (order : BitOrder) (b : Byte) :
    (List.finRange 8).map (bitOf order b) = byteBits order b := by
  cases order with
  | msbFirst => rfl
  | lsbFirst => rfl

/-- LSB first is MSB first reversed within the byte (R57, D11). -/
theorem byteBits_lsbFirst (b : Byte) : byteBits .lsbFirst b = (byteBits .msbFirst b).reverse := rfl

/-- Settles O27: in each order the eight bits are the byte's, written out, and the two lists mirror each
other. -/
theorem bitOrdersMirrorEachOther : Obligations.BitOrdersMirrorEachOther :=
  ⟨map_bitOf_finRange, byteBits_lsbFirst⟩

end Sys2Proof.Machine
end

section
/-! PROOF. The encoding (spec/30_encoding.md): the decoder and the encoder undo each other (R71, R81,
R86), the illegal words of R82, the assembler's lines (R85), the codes (R80), and what a step makes of the
command it takes (R70, R82). -/

namespace Sys2Proof

/-! ### Forms and their words -/

/-- The word R87 tables for each form. -/
def formWord : Form → Word
  | .create .msbFirst false => 0x00000001
  | .create .lsbFirst false => 0x00000011
  | .create .msbFirst true => 0x00000021
  | .create .lsbFirst true => 0x00000031
  | .encode => 0x00000002
  | .reset => 0x00000003
  | .dispose => 0x00000004

/-- The form an instruction is written in (R72, R74). -/
def Instr.form : Instr → Form
  | .create order _ _ => .create order false
  | .createRom order _ => .create order true
  | .encode _ _ _ => .encode
  | .reset => .reset
  | .dispose => .dispose

/-- The encoder's fields make up the tabled word. -/
theorem encodeWord_eq_formWord (i : Instr) : encodeWord i = formWord i.form := by
  cases i with
  | create order | createRom order => cases order <;> rfl
  | encode | reset | dispose => rfl

/-- The encoder keeps every operand its form takes. -/
theorem withOperands_encodeOperands (i : Instr) :
    withOperands (encodeOperands i) i.form = i := by
  cases i <;> rfl

@[simp] theorem form_withOperands (o : Operands) (f : Form) : (withOperands o f).form = f := by
  cases f with
  | create order src => cases src <;> rfl
  | encode | reset | dispose => rfl

/-- Each tabled word decodes to its form. -/
theorem decodeWord_formWord : (f : Form) → decodeWord (formWord f) = .ok f
  | .create .msbFirst false => decodeWord_01
  | .create .lsbFirst false => decodeWord_11
  | .create .msbFirst true => decodeWord_21
  | .create .lsbFirst true => decodeWord_31
  | .encode => decodeWord_02
  | .reset => decodeWord_03
  | .dispose => decodeWord_04

/-! ### No other word has a form -/

theorem reservedField_eq_zero_iff (w : Word) : reservedField w = 0 ↔ w.toNat / 64 = 0 := by
  rw [← BitVec.toNat_inj, toNat_reservedField]; rfl

theorem opField_eq_iff (w : Word) (k : BitVec 4) : opField w = k ↔ w.toNat % 16 = k.toNat := by
  rw [← BitVec.toNat_inj, toNat_opField]

theorem createFields_eq_zero_iff (w : Word) : createFields w = 0 ↔ w.toNat / 16 % 4 = 0 := by
  rw [← BitVec.toNat_inj, toNat_createFields]; rfl

theorem toNat_formWord_create (order : BitOrder) (src : Bool) :
    (formWord (.create order src)).toNat = 1 + 16 * (bitOfOrder order).toNat + 32 * src.toNat := by
  cases order <;> cases src <;> rfl

/-- Within bits 5:0 and with the `OP` of CREATE, `BO` and `SRC` determine the word. -/
theorem eq_formWord_create {w : Word} (hr : reservedField w = 0) (hop : opField w = 0x1) :
    w = formWord (.create (orderOfBit (boField w)) (srcField w)) := by
  rw [reservedField_eq_zero_iff] at hr
  replace hop : w.toNat % 16 = 1 := (opField_eq_iff w 0x1).mp hop
  rw [← BitVec.toNat_inj, toNat_formWord_create, bitOfOrder_orderOfBit, boField_eq,
    srcField_eq]
  simp only [Bool.toNat, Bool.cond_decide]
  split_ifs <;> omega

/-- A word with no bit set above `OP` is its `OP`. -/
theorem eq_setWidth_opField {w : Word} (hr : reservedField w = 0) (hf : createFields w = 0) :
    w = (opField w).setWidth 32 := by
  rw [reservedField_eq_zero_iff] at hr
  rw [createFields_eq_zero_iff] at hf
  rw [← BitVec.toNat_inj, BitVec.toNat_setWidth, toNat_opField]
  omega

/-- A word that decodes is the tabled word of its form. -/
theorem eq_formWord_of_decodeWord {w : Word} {f : Form} (h : decodeWord w = .ok f) :
    w = formWord f := by
  unfold decodeWord at h
  split_ifs at h with hr hcreate hf _ hencode hreset hdispose <;> cases h
  · exact eq_formWord_create (not_not.mp hr) hcreate
  all_goals rw [eq_setWidth_opField (not_not.mp hr) (not_not.mp hf)]
  · rw [hencode]; rfl
  · rw [hreset]; rfl
  · rw [hdispose]; rfl

theorem decodeWord_eq_ok_iff {w : Word} {f : Form} : decodeWord w = .ok f ↔ w = formWord f :=
  ⟨eq_formWord_of_decodeWord, fun h => h ▸ decodeWord_formWord f⟩

/-! ### The round trip -/

/-- An encoded instruction decodes to itself. -/
theorem decode_encode (i : Instr) : decode (encode i) = .ok i := by
  have hword : decodeWord (encodeWord i) = .ok i.form :=
    decodeWord_eq_ok_iff.mpr (encodeWord_eq_formWord i)
  rw [encode, decode_eq hword, withOperands_encodeOperands]

/-- Settles O3: the encoder's word is the tabled word of the instruction's form, and the decoder reads
that form from no other word. -/
theorem decodeInvertsEncode : Obligations.DecodeInvertsEncode := by
  refine ⟨decode_encode, fun c i h => ?_⟩
  obtain ⟨f, hf, rfl⟩ := decode_ok h
  rw [encodeWord_eq_formWord, form_withOperands, decodeWord_eq_ok_iff.mp hf]

/-! ### Illegal words -/

/-- The seven words of R87, as numbers. -/
theorem exists_formWord_iff (w : Word) :
    (∃ f, w = formWord f) ↔ w.toNat ∈ [0x01, 0x11, 0x21, 0x31, 0x02, 0x03, 0x04] := by
  constructor
  · rintro ⟨f, rfl⟩
    cases f with
    | create order src => cases order <;> cases src <;> decide
    | encode | reset | dispose => decide
  · intro h
    simp only [List.mem_cons, List.not_mem_nil, or_false] at h
    rcases h with h | h | h | h | h | h | h
    · exact ⟨.create .msbFirst false, BitVec.eq_of_toNat_eq h⟩
    · exact ⟨.create .lsbFirst false, BitVec.eq_of_toNat_eq h⟩
    · exact ⟨.create .msbFirst true, BitVec.eq_of_toNat_eq h⟩
    · exact ⟨.create .lsbFirst true, BitVec.eq_of_toNat_eq h⟩
    · exact ⟨.encode, BitVec.eq_of_toNat_eq h⟩
    · exact ⟨.reset, BitVec.eq_of_toNat_eq h⟩
    · exact ⟨.dispose, BitVec.eq_of_toNat_eq h⟩

/-- A command is legal exactly when its word is the tabled word of some form. -/
theorem decode_isOk_iff (c : Command) : (∃ i, decode c = .ok i) ↔ ∃ f, c.word = formWord f := by
  constructor
  · rintro ⟨i, h⟩
    obtain ⟨f, hf, -⟩ := decode_ok h
    exact ⟨f, decodeWord_eq_ok_iff.mp hf⟩
  · rintro ⟨f, hf⟩
    exact ⟨_, decode_eq (decodeWord_eq_ok_iff.mpr hf) c.operands⟩

/-- A command that is not legal is rejected: the decoder answers every word. -/
theorem decode_isError_iff (c : Command) : (∃ e, decode c = .error e) ↔ ¬ ∃ i, decode c = .ok i := by
  cases decode c <;> simp

/-- Settles O2: the legal words are the seven tabled ones, and the classes of R82 are the complement of
those seven numbers. -/
theorem illegalWordsAreExactlyTheReservedOnes :
    Obligations.IllegalWordsAreExactlyTheReservedOnes := by
  intro c
  have hlegal := (decode_isOk_iff c).trans (exists_formWord_iff c.word)
  refine ⟨?_, hlegal⟩
  rw [decode_isError_iff, hlegal]
  simp only [List.mem_cons, List.not_mem_nil, or_false]
  omega

/-- Settles O1: each word of R87 decodes, or is rejected, as tabled, whatever the operands. -/
theorem commandWordsDecodeAsTabled : Obligations.CommandWordsDecodeAsTabled := fun o =>
  ⟨decode_eq decodeWord_01 o, decode_eq decodeWord_11 o, decode_eq decodeWord_21 o,
    decode_eq decodeWord_31 o, decode_eq decodeWord_02 o, decode_eq decodeWord_03 o,
    decode_eq decodeWord_04 o,
    decode_error (by decide) o, decode_error (by decide) o, decode_error (by decide) o,
    decode_error (by decide) o, decode_error (by decide) o, decode_error (by decide) o,
    decode_error (by decide) o⟩

end Sys2Proof

namespace Sys2Proof.Machine

/-! ### The assembler -/

/-- The word of a line is the tabled word of its form (R86). -/
theorem assemble_word (dest : Memory) (line : AsmLine) :
    (assemble dest line).word = formWord (asmInstr dest line).form :=
  encodeWord_eq_formWord _

/-- The command of a line decodes to the instruction of the line. -/
theorem decode_assemble (dest : Memory) (line : AsmLine) :
    decode (assemble dest line) = .ok (asmInstr dest line) :=
  decode_encode _

/-- Settles O4: the word and the decoding of each kind of line are those of its instruction. -/
theorem assembledLinesAreOneWord : Obligations.AssembledLinesAreOneWord := by
  intro dest res t0h t0l t1h t1l rst data cap
  exact ⟨assemble_word _ _, assemble_word _ _, assemble_word _ _, assemble_word _ _,
    assemble_word _ _, assemble_word _ _, assemble_word _ _, assemble_word _ _, assemble_word _ _,
    fun order => ⟨decode_assemble _ _, decode_assemble _ _⟩,
    decode_assemble _ _, decode_assemble _ _, decode_assemble _ _⟩

/-- A comment is cut off with its semicolon. -/
theorem stripComment_append_comment {line : List Char} (comment : List Char) (h : ';' ∉ line) :
    stripComment (line ++ ';' :: comment) = stripComment line := by
  have hline : ∀ c ∈ line, (c != ';') = true :=
    fun c hc => bne_iff_ne.mpr fun heq => h (heq ▸ hc)
  have hsemi : (';' :: comment).takeWhile (· != ';') = [] := rfl
  rw [stripComment, stripComment, List.takeWhile_append_of_pos hline, hsemi,
    List.takeWhile_eq_self_iff.mpr hline, List.append_nil]

/-- An underscore between two nonempty parts of a numeral is neither its first nor its last character
and is filtered out. -/
theorem readNumeral_underscore (base : Nat) {a b : List Char} (ha : a ≠ []) (hb : b ≠ []) :
    readNumeral base (a ++ '_' :: b) = readNumeral base (a ++ b) := by
  have hhead : (a ++ '_' :: b).head? = (a ++ b).head? := by
    rw [List.head?_append_of_ne_nil _ ha, List.head?_append_of_ne_nil _ ha]
  have hlast : (a ++ '_' :: b).getLast? = (a ++ b).getLast? := by
    rw [List.getLast?_append_of_ne_nil _ (List.cons_ne_nil _ _),
      List.getLast?_append_of_ne_nil _ hb, List.getLast?_cons_of_ne_nil hb]
  have hdigits : (a ++ '_' :: b).filter (· != '_') = (a ++ b).filter (· != '_') := by
    simp
  have hne : (a ++ '_' :: b) ≠ [] ∧ a ++ b ≠ [] := by simp [ha]
  simp only [readNumeral, hhead, hlast, hdigits, hne]

/-- A number wider than its field is refused (R77). -/
theorem readField_wide {bits n : Nat} {cs : List Char} (h : readNumber cs = some n)
    (hwide : 2 ^ bits ≤ n) : readField bits cs = none := by
  simp [readField, h, hwide]

/-- A number that fits its field keeps its value (R77). -/
theorem readField_fits {bits n : Nat} {cs : List Char} (h : readNumber cs = some n)
    (hfits : n < 2 ^ bits) : ∃ b, readField bits cs = some b ∧ b.toNat = n :=
  ⟨BitVec.ofNat bits n, by simp [readField, h, hfits], by simp [Nat.mod_eq_of_lt hfits]⟩

/-- Settles O5: the laws of comments, underscores and field widths, and the six lines read by running the
reader. -/
theorem textLinesReadAsTheirParts : Obligations.TextLinesReadAsTheirParts := by
  refine ⟨fun line comment h => ?_, fun a b ha hb => ?_, fun cs => rfl,
    fun bits n cs h => ⟨readField_wide h, readField_fits h⟩, by decide, by decide, by decide,
    by decide, by decide, by decide⟩
  · rw [readLine, readLine, stripComment_append_comment comment h]
  · exact ⟨readNumeral_underscore 10 ha hb, readNumeral_underscore 16 ha hb⟩

/-- Settles O6: the codes are defined by their tables. -/
theorem codesAreTabled : Obligations.CodesAreTabled :=
  ⟨⟨rfl, rfl, rfl, rfl, rfl, rfl, rfl⟩, ⟨rfl, rfl, rfl⟩, ⟨rfl, rfl⟩, ⟨rfl, rfl⟩, ⟨rfl, rfl⟩⟩

/-! ### The command port -/

/-- Settles O7: the step takes the command off the port and, as it decodes and can be expressed, runs
it. -/
theorem stepExecutesTheDecodedCommand : Obligations.StepExecutesTheDecodedCommand := by
  intro s t rest i hp hd hwf
  rw [step_cons hp]
  exact runCommand_runs (s := accept t rest s) hd hwf

/-- Settles O9: the step takes the command off the port and raises a contract violation. -/
theorem illegalWordRaisesIllegalCommand : Obligations.IllegalWordRaisesIllegalCommand := by
  intro s t rest e hp hd
  rw [step_cons hp, runCommand_illegal hd]
  rfl

end Sys2Proof.Machine
end

section
/-! PROOF. The timing derivation and the two forms of CREATE (spec/41_timing_table.md): when a derivation
succeeds and with which counts (R102 to R106), the table of R113 and R114, and the registers a CREATE
leaves (R108). -/

namespace Sys2Proof.Machine

/-! ### When the derivation succeeds -/

/-- Settles O20: the test of the resolution is the derivation's first. -/
theorem zeroResolutionFailsBeforeAnyTick : Obligations.ZeroResolutionFailsBeforeAnyTick :=
  fun _ => if_pos rfl

/-- The five counts fit exactly when each formula of R103 and R105 gives at most `2^32 - 1` (R106). -/
theorem countsFit_tickCounts_iff (k : TimingConstants) (res : Word) :
    countsFit (tickCounts k res) = true ↔
      (k.t0hNs.toNat * res.toNat / 1000000000 ≤ 2 ^ 32 - 1 ∧
        k.t0lNs.toNat * res.toNat / 1000000000 ≤ 2 ^ 32 - 1 ∧
        k.t1hNs.toNat * res.toNat / 1000000000 ≤ 2 ^ 32 - 1 ∧
        k.t1lNs.toNat * res.toNat / 1000000000 ≤ 2 ^ 32 - 1 ∧
        res.toNat / 1000000 * k.resetUs.toNat / 2 ≤ 2 ^ 32 - 1) :=
  countsFit_iff (tickCounts k res)

/-- The derivation has no third condition: a count of zero is no error (R106, D8). -/
theorem exists_deriveTiming_ok_iff (k : TimingConstants) (res : Word) :
    (∃ t, deriveTiming k res = .ok t) ↔ res ≠ 0 ∧ countsFit (tickCounts k res) = true := by
  constructor
  · rintro ⟨t, ht⟩
    obtain ⟨hres, hfit, -⟩ := deriveTiming_ok.mp ht
    exact ⟨hres, hfit⟩
  · rintro ⟨hres, hfit⟩
    exact ⟨_, deriveTiming_ok.mpr ⟨hres, hfit, rfl⟩⟩

/-- Settles O23: each row is the derivation run on its operands. -/
theorem timingsAreTabled : Obligations.TimingsAreTabled := by
  refine ⟨?_, ?_, ?_, ?_, ?_, ?_, ?_, ?_⟩ <;> decide

/-! ### The counts of a derived timing -/

/-- A count that fits is not truncated by its 32-bit field (R106). -/
theorem toNat_ofNat_of_fits {n : Nat} (h : n ≤ 2 ^ 32 - 1) : (BitVec.ofNat 32 n).toNat = n :=
  Nat.mod_eq_of_lt (Nat.lt_of_le_sub_one (by decide) h)

/-- The derived bit times are the counts of R104: they fit, so nothing wraps (R106). -/
theorem deriveTiming_bitTicks {k : TimingConstants} {res : Word} {t : TimingConfig}
    (h : deriveTiming k res = .ok t) :
    t.bit0.high.toNat = tickCount k.t0hNs.toNat res.toNat ∧
      t.bit0.low.toNat = tickCount k.t0lNs.toNat res.toNat ∧
      t.bit1.high.toNat = tickCount k.t1hNs.toNat res.toNat ∧
      t.bit1.low.toNat = tickCount k.t1lNs.toNat res.toNat := by
  obtain ⟨-, hfit, rfl⟩ := deriveTiming_ok.mp h
  obtain ⟨h0h, h0l, h1h, h1l, -⟩ := (countsFit_iff _).mp hfit
  exact ⟨toNat_ofNat_of_fits h0h, toNat_ofNat_of_fits h0l, toNat_ofNat_of_fits h1h,
    toNat_ofNat_of_fits h1l⟩

/-- For a whole number of microseconds the count of R103 is `(t_us * res) div 10^6`. -/
theorem tickCount_micros (tUs res : Nat) : tickCount (1000 * tUs) res = tUs * res / 1000000 := by
  rw [tickCount, Nat.mul_assoc]
  exact Nat.mul_div_mul_left (tUs * res) 1000000 (by decide)

/-- At a whole number of MHz `res div 10^6` truncates nothing, and the count of R105 is half that of
R103. -/
theorem resetTickCount_eq_half_tickCount {us res : Nat} (h : res % 1000000 = 0) :
    resetTickCount us res = tickCount (1000 * us) res / 2 := by
  rw [tickCount_micros, resetTickCount, Nat.mul_comm us,
    Nat.div_mul_right_comm (Nat.dvd_of_mod_eq_zero h)]

/-- Settles O22: the counts fit, so the fields hold them as they are. -/
theorem bitTicksFollowTheTickFormula : Obligations.BitTicksFollowTheTickFormula := by
  refine ⟨fun k res t h => ?counts, tickCount_micros, fun k res => ?succeeds⟩
  case counts => exact ⟨(deriveTiming_resHz h).1, deriveTiming_bitTicks h⟩
  case succeeds => rw [exists_deriveTiming_ok_iff, countsFit_tickCounts_iff]

/-- Settles O21: the default ROM at 1.5 MHz has 25 reset ticks, where half the general count is 37. -/
theorem resetTicksFollowTheirOwnFormula : Obligations.ResetTicksFollowTheirOwnFormula := by
  refine ⟨fun k res t h => ⟨deriveTiming_resetTicks h, fun hres => ?half⟩, ?differ⟩
  case half =>
    exact (deriveTiming_resetTicks h).trans (resetTickCount_eq_half_tickCount hres)
  case differ =>
    obtain ⟨-, row, -⟩ := timingsAreTabled
    exact ⟨_, _, _, row, by decide, by decide⟩

/-! ### CREATE -/

/-- CREATE of a block that is not CREATED, with counts that fit and a true draw, configures it
(R108). -/
theorem createWith_configures (order : BitOrder) {res : Word} {k : TimingConstants} {s : State}
    (hl : s.regs.lifecycle ≠ .created) (hres : res ≠ 0) (hfit : countsFit (tickCounts k res) = true)
    (ha : AllocOk s) :
    createWith order res k s = .next
      { s with
        regs := createdRegisters order (timingOfCounts res (tickCounts k res))
        response := some okResponse } := by
  have ht : deriveTiming k res = .ok (timingOfCounts res (tickCounts k res)) :=
    deriveTiming_ok.mpr ⟨hres, hfit, rfl⟩
  rw [createWith, if_neg hl, ht]
  exact if_pos ha

/-- Settles O17: `SRC = 0` is CREATE over the constants of the operands. -/
theorem createFromOperandsConfigures : Obligations.CreateFromOperandsConfigures := by
  rintro s order res k _ _ _ _ _ hl hres rfl rfl rfl rfl rfl h0h h0l h1h h1l hrst ha
  exact createWith_configures order hl hres
    ((countsFit_tickCounts_iff k res).mpr ⟨h0h, h0l, h1h, h1l, hrst⟩) ha

/-- Settles O18: `SRC = 1` is CREATE over the constants of the ROM. -/
theorem createFromRomConfigures : Obligations.CreateFromRomConfigures := by
  rintro s order res _ _ _ _ _ hl hres rfl rfl rfl rfl rfl h0h h0l h1h h1l hrst ha
  exact createWith_configures order hl hres
    ((countsFit_tickCounts_iff (romConstants s) res).mpr ⟨h0h, h0l, h1h, h1l, hrst⟩) ha

end Sys2Proof.Machine
end

section
/-! PROOF. The converter (spec/42_byte_stream_encoder.md): how many symbols it emits (R130, R132), which
and where (R131), and that it tests the end of DATA before the capacity (R125 to R127). -/

namespace Sys2Proof.Machine

/-- The stream has a bit at every position before the end of DATA (R131, R132). -/
theorem bitStream_some {order : BitOrder} {data : List Byte} {k : Nat} (h : k < 8 * data.length) :
    ∃ b, bitStream order data k = some b :=
  bitAt_some (c := cursorAt k) (Nat.div_lt_of_lt_mul h)

/-- A cursor in range that is not at the end is before it. -/
theorem byteIndex_lt_iff {c : Cursor} {len : Nat} (h : cursorInRange c len = true) :
    c.byteIndex < len ↔ remainingBits len c ≠ 0 := by
  rw [ne_eq, ← atEnd_iff h]
  rcases (cursorInRange_iff c len).mp h with hlt | ⟨hend, -⟩ <;> omega

/-- A cursor in range with `BYTE_INDEX = L` is `{L, 0}` (R166). -/
theorem eq_endCursor {c : Cursor} {len : Nat} (h : cursorInRange c len = true)
    (hend : c.byteIndex = len) : c = ⟨len, 0⟩ := by
  obtain ⟨b, i⟩ := c
  rcases (cursorInRange_iff _ _).mp h with hlt | ⟨rfl, rfl⟩
  · exact absurd hend (Nat.ne_of_lt hlt)
  · rfl

/-- The bits a cursor has moved over no longer remain (R124, R130). -/
theorem remainingBits_of_bitPosition {c d : Cursor} {len n : Nat}
    (hc : cursorInRange c len = true) (hd : cursorInRange d len = true)
    (hpos : bitPosition d = bitPosition c + n) : remainingBits len d = remainingBits len c - n := by
  have hremC := remainingBits_add_bitPosition hc
  have hremD := remainingBits_add_bitPosition hd
  omega

/-- Settles O24: the outcome and the cursor are those of the loop's specification. -/
theorem converterCountLaw : Obligations.ConverterCountLaw := by
  intro order bit0 bit1 data cap c dest hc
  obtain ⟨x, hx, hout, hpos, hin, -⟩ := continueData_spec order bit0 bit1 data cap c dest hc
  refine ⟨x, hx, ?_⟩
  rw [hout]
  exact ⟨rfl, decide_eq_true_iff, decide_eq_true_iff, hpos, hin⟩

/-- Settles O25: every position below the count has a stream bit, since the count stops at the bits
remaining. -/
theorem converterContentLaw : Obligations.ConverterContentLaw := by
  intro order bit0 bit1 data cap c dest x hc hx
  obtain ⟨x', hx', hout, -, -, hmem, hwf⟩ := continueData_spec order bit0 bit1 data cap c dest hc
  cases hx.symm.trans hx'
  rw [hout]
  refine ⟨fun j hj => ?written, fun j hj => ?kept, hwf⟩
  case written =>
    have hj : j < min cap (remainingBits data.length c) := hj
    have hrem := remainingBits_add_bitPosition hc
    obtain ⟨b, hb⟩ : ∃ b, bitStream order data (bitPosition c + j) = some b :=
      bitStream_some (by omega)
    exact ⟨b, hb, by rw [hmem, if_pos hj, hb, Option.map_some]⟩
  case kept => rw [hmem, if_neg (Nat.not_lt.mpr hj)]

/-- At the end of DATA the converter is complete at once, with capacity or without: the end is tested
first (R125, R126). -/
theorem continueData_atEnd (order : BitOrder) (bit0 bit1 : PulseShape) {data : List Byte}
    (cap : Nat) {c : Cursor} (dest : Memory) (hend : c.byteIndex = data.length) :
    continueData order bit0 bit1 data cap c dest = .ok ⟨c, dest, ⟨0, true, false⟩⟩ := by
  cases cap with
  | zero | succ room => rw [continueData, converterLoop, if_pos hend]

/-- Settles O26: both flags compare the capacity with the bits that remain at the start, and those less
the count are the bits that remain at the exit. -/
theorem converterTestsTheEndFirst : Obligations.ConverterTestsTheEndFirst := by
  refine ⟨fun order bit0 bit1 data cap c dest x hc hx => ?_,
    fun order bit0 bit1 cap dest => continueData_atEnd order bit0 bit1 cap dest rfl⟩
  obtain ⟨x', hx', hout, hpos, hin, -⟩ := continueData_spec order bit0 bit1 data cap c dest hc
  cases hx.symm.trans hx'
  have hrem := remainingBits_of_bitPosition hc hin hpos
  have hcomplete : x.outcome.subComplete = true ↔ x.cursor.byteIndex = data.length := by
    rw [hout, atEnd_iff hin, decide_eq_true_iff]
    omega
  refine ⟨?full, hcomplete, fun h => eq_endCursor hin (hcomplete.mp h)⟩
  case full =>
    rw [byteIndex_lt_iff hin, hout, decide_eq_true_iff]
    dsimp only
    omega

end Sys2Proof.Machine
end

section
/-! PROOF. The reset-pulse emitter (spec/43_reset_emitter.md): nothing without capacity and one reset
symbol with it (R141, R145), and the ENCODE that finds none for it (R142). -/

namespace Sys2Proof.Machine

/-- Settles O29: without capacity the emitter returns at once, and with capacity its count, its flags and
each DEST position are those of its specification. -/
theorem emitterEmitsAtMostOneSymbol : Obligations.EmitterEmitsAtMostOneSymbol := by
  intro ticks cap p dest
  obtain ⟨hout, hmem, -⟩ := continueReset_spec ticks cap p dest
  refine ⟨fun hzero => if_pos hzero, fun hcap => ⟨?outcome, ?written, fun j hj => ?kept⟩⟩
  case outcome =>
    rw [hout, Nat.min_eq_right hcap, decide_eq_true hcap,
      decide_eq_false (Nat.one_le_iff_ne_zero.mp hcap)]
  case written => exact (hmem p).trans (if_pos ⟨hcap, rfl⟩)
  case kept => exact (hmem j).trans (if_neg fun h => hj h.2)

/-- Settles O33: step 2 of ENCODE at capacity 0 answers `BUFFER_FULL` before it writes. -/
theorem encodeInResetNeedsCapacity : Obligations.EncodeInResetNeedsCapacity :=
  fun _ _ data dest hv hp => exec_encode_reset_full hv hp data rfl dest

end Sys2Proof.Machine
end

section
/-! PROOF. The frame FSM (spec/44_frame_fsm.md): the exits of ENCODE (R156 to R163) and its closed form
(R167, R168), RESET and DISPOSE (R170 to R173), and the frames that a sequence of calls puts out
(R169, R174 to R178). -/

namespace Sys2Proof.Machine

/-! ### ENCODE in phase DATA -/

/-- ENCODE of held registers in phase DATA, by what the converter leaves: its three exits (R156, R158,
R161). -/
theorem exec_encode_data {s : State} {v : Held} {data : List Byte} {cap : Nat} {dest : Memory}
    {x : ConverterExit} (hv : s.regs = heldRegisters v) (hp : v.phase = .data)
    (hc : cursorInRange v.cursor data.length = true)
    (hx : continueData v.order v.timing.bit0 v.timing.bit1 data cap v.cursor dest = .ok x) :
    exec (.encode data cap dest) s =
      if x.outcome.subFull then .next
        { s with
          regs := heldRegisters { v with phase := .data, cursor := x.cursor }
          response := some (bufferFullResponse x.outcome.count)
          dest := x.dest }
      else if cap - x.outcome.count = 0 then .next
        { s with
          regs := heldRegisters { v with phase := .reset, cursor := x.cursor }
          response := some (bufferFullResponse x.outcome.count)
          dest := x.dest }
      else .next
        { s with
          regs := heldRegisters { v with phase := .data, cursor := startCursor }
          response := some (completeResponse (x.outcome.count + 1))
          dest := memWrite x.outcome.count (resetSym v.timing.resetTicks) x.dest } := by
  rw [exec, execEncode_data hv hp hc]
  simp only [encodeDataStep, hv, heldRegisters_bitOrder, readReg_some, readShapes_held, hx,
    writeCursor_held]
  split
  · rfl
  · split
    · rfl
    · next hcap => exact encodeResetStep_complete rfl (Nat.one_le_iff_ne_zero.mpr hcap)

/-- Settles O30: with less capacity than bits the converter emits `CAP` symbols and is full. -/
theorem encodeStopsWhenCapacityRunsOut : Obligations.EncodeStopsWhenCapacityRunsOut := by
  intro s v data cap dest hv hp hc hlt
  obtain ⟨x, hx, hout, hpos, -, hmem, -⟩ :=
    continueData_spec v.order v.timing.bit0 v.timing.bit1 data cap v.cursor dest hc
  rw [Nat.min_eq_left hlt.le] at hout hpos hmem
  have hcursor : x.cursor = cursorAt (bitPosition v.cursor + cap) := by
    rw [← hpos, cursorAt_bitPosition]
  refine ⟨x.dest, ?_, hmem⟩
  rw [exec_encode_data hv hp hc hx, hout, if_pos (decide_eq_true hlt), hcursor, ← hp]
  rfl

/-- Settles O31: the converter ends at `{L, 0}` with no capacity left for the reset symbol. -/
theorem encodeStopsAtTheBoundary : Obligations.EncodeStopsAtTheBoundary := by
  intro s v data cap dest hv hp hc heq
  obtain ⟨x, hx, hout, hpos, hin, hmem, -⟩ :=
    continueData_spec v.order v.timing.bit0 v.timing.bit1 data cap v.cursor dest hc
  rw [← heq, Nat.min_self] at hout hpos hmem
  have hcursor : x.cursor = ⟨data.length, 0⟩ :=
    eq_endCursor hin ((atEnd_iff hin).mpr (by rw [remainingBits_of_bitPosition hc hin hpos]; omega))
  refine ⟨x.dest, ?_, hmem⟩
  rw [exec_encode_data hv hp hc hx, hout, if_neg (by simp), if_pos (Nat.sub_self cap), hcursor]
  rfl

/-- Settles O32: after the last data symbol of the call, or at once in phase RESET, the emitter writes
the reset symbol. -/
theorem encodeCompletesTheFrame : Obligations.EncodeCompletesTheFrame := by
  intro s v data cap dest hv
  refine ⟨fun hp hc hlt => ?fallThrough, fun hp hcap => ?fromReset⟩
  case fallThrough =>
    obtain ⟨x, hx, hout, -, -, hmem, -⟩ :=
      continueData_spec v.order v.timing.bit0 v.timing.bit1 data cap v.cursor dest hc
    rw [Nat.min_eq_right hlt.le] at hout hmem
    refine ⟨memWrite (remainingBits data.length v.cursor) (resetSym v.timing.resetTicks) x.dest,
      ?_, fun j => ?_⟩
    · rw [exec_encode_data hv hp hc hx, hout, if_neg (by simpa using hlt.le),
        if_neg (Nat.sub_ne_zero_of_lt hlt)]
      rfl
    · rw [memRead_memWrite, hmem j]
      rcases Nat.lt_trichotomy j (remainingBits data.length v.cursor) with hj | hj | hj
      · rw [if_neg hj.ne, if_pos hj, if_pos hj]; rfl
      · rw [if_pos hj, if_neg (by omega), if_pos hj]; rfl
      · rw [if_neg hj.ne', if_neg (by omega), if_neg (by omega), if_neg hj.ne']
  case fromReset =>
    exact ⟨_, exec_encode_reset_complete hv hp data hcap dest, fun j => memRead_memWrite j 0 _ dest⟩

/-- Settles O34: the range check comes before the first effect, and phase RESET goes past it. -/
theorem encodeRefusesACursorOutsideData : Obligations.EncodeRefusesACursorOutsideData := by
  intro s v data cap dest hv
  refine ⟨fun hp hout => ?outside, fun hp => ?inReset⟩
  case outside =>
    have hc : ¬ cursorInRange v.cursor data.length = true := by rwa [cursorInRange_iff]
    rw [exec, execEncode_of_phase_data data cap dest (by rw [hv]; rfl) (by rw [hv, ← hp]; rfl), hv,
      readCursor_held, if_neg hc]
    rfl
  case inReset =>
    rcases Nat.eq_zero_or_pos cap with hzero | hcap
    · exact ⟨_, _, exec_encode_reset_full hv hp data hzero dest, rfl, rfl⟩
    · exact ⟨_, _, exec_encode_reset_complete hv hp data hcap dest, rfl, rfl⟩

/-- Settles O37: an ENCODE that answers OK was not raised, and its response is one of those an OK ENCODE
can give. -/
theorem encodeIsCapacityExact : Obligations.EncodeIsCapacityExact := by
  intro s u data cap dest r h hr hok
  rcases exec_next h with ⟨e, he, h⟩ | ⟨hi, -⟩ |
    ⟨_, _, _, _, _, _, hi, -, rfl, -, answer⟩ | ⟨hi, -⟩ | ⟨hi, -⟩
  case inl =>
    obtain ⟨-, -, -, -, -, hresp⟩ := raise_regs h
    cases hr.symm.trans hresp
    exact absurd hok he
  case inr.inl => rcases hi with ⟨_, _, _, hi⟩ | ⟨_, _, hi⟩ <;> cases hi
  case inr.inr.inl =>
    cases hi
    cases hr
    exact ⟨answer.written_le, answer.one_flag, answer.full⟩
  case inr.inr.inr.inl | inr.inr.inr.inr => cases hi

/-- Fresh values are those with the cursor `{DATA, 0, 0}` written again (R176). -/
theorem Fresh.with_start {v : Held} (h : Fresh v) :
    { v with phase := .data, cursor := startCursor } = v := by
  obtain ⟨hp, hc⟩ := h
  rw [← hp, ← hc]

/-- A fresh block is in range of every DATA. -/
theorem Fresh.inRange {v : Held} (h : Fresh v) (len : Nat) : cursorInRange v.cursor len = true := by
  rw [h.2, cursorInRange_iff_bitPosition]
  exact Nat.zero_le _

/-- A fresh block has all bits of DATA before it. -/
theorem Fresh.remainingBits {v : Held} (h : Fresh v) (len : Nat) :
    Machine.remainingBits len v.cursor = 8 * len := by
  rw [h.2]; rfl

/-- Settles O39: no bit remains, so the first unit of capacity goes to the reset symbol. -/
theorem emptyFrameIsOneResetSymbol : Obligations.EmptyFrameIsOneResetSymbol := by
  intro s v cap dest hv hfresh
  have hc : cursorInRange v.cursor ([] : List Byte).length = true := hfresh.inRange 0
  refine ⟨fun hcap => ?complete, fun hzero => ?full⟩
  case complete =>
    obtain ⟨complete, -⟩ := encodeCompletesTheFrame s v [] cap dest hv
    have hrem : remainingBits ([] : List Byte).length v.cursor = 0 := hfresh.remainingBits 0
    obtain ⟨m, hexec, hmem⟩ := complete hfresh.1 hc (hrem.trans_lt hcap)
    rw [hrem] at hexec hmem
    have hregs : heldRegisters { v with phase := .data, cursor := ⟨0, 0⟩ } = s.regs :=
      (congrArg heldRegisters hfresh.with_start).trans hv.symm
    refine ⟨m, by rw [hexec, hregs], hmem 0, fun j hj => ?_⟩
    · rw [hmem j, if_neg (by simp), if_neg (by simpa using hj)]
  case full =>
    subst hzero
    rw [exec_encode_data hv hfresh.1 hc
      (continueData_atEnd _ _ _ 0 dest (by rw [hfresh.2]; rfl)), if_neg (by simp),
      if_pos (Nat.zero_sub _)]
    rfl

/-! ### RESET and DISPOSE -/

/-- Settles O42: RESET of a CREATED block writes the cursor and responds. -/
theorem resetReturnsTheCursorToItsStart : Obligations.ResetReturnsTheCursorToItsStart :=
  fun _ hl => if_pos hl

/-- Settles O43: DISPOSE of a CREATED block unsets its registers and responds. -/
theorem disposeUnsetsEveryRegister : Obligations.DisposeUnsetsEveryRegister :=
  fun _ hl => if_pos hl

/-- A block that is not CREATED raises INVALID_HANDLE on ENCODE, RESET and DISPOSE (R173, R205). -/
theorem exec_raises_invalidHandle {s : State} {data : List Byte} {cap : Nat} {dest : Memory}
    {i : Instr} (hl : s.regs.lifecycle ≠ .created)
    (hi : i ∈ [Instr.encode data cap dest, .reset, .dispose]) :
    exec i s = raise .invalidHandle { s with dest := broughtDest i s } := by
  simp only [List.mem_cons, List.not_mem_nil, or_false] at hi
  rcases hi with rfl | rfl | rfl
  case inl | inr.inl | inr.inr => exact if_neg hl

/-- Either form of CREATE over constants whose derivation succeeds makes a block that is not CREATED
a fresh one, if the draw is true (R108, R109). -/
theorem exec_create_fresh {s : State} {order : BitOrder} {res : Word} {k : TimingConstants}
    {t : TimingConfig} {i : Instr} (hl : s.regs.lifecycle ≠ .created)
    (ht : deriveTiming k res = .ok t) (halloc : AllocOk s)
    (hi : i = .create order res k ∨ (i = .createRom order res ∧ k = s.config.rom)) :
    exec i s = .next
      { s with
        regs := heldRegisters ⟨.data, startCursor, order, t⟩
        response := some okResponse } := by
  obtain ⟨hres, hfit, rfl⟩ := deriveTiming_ok.mp ht
  have configures := createWith_configures order hl hres hfit halloc
  rcases hi with rfl | ⟨rfl, rfl⟩
  case inl | inr => exact configures

/-- Settles O46: DISPOSE leaves a block that is not CREATED, which the three commands refuse and
CREATE configures. -/
theorem disposedInstanceTakesOnlyCreate : Obligations.DisposedInstanceTakesOnlyCreate := by
  intro s u data cap dest order res k hl h
  cases (disposeUnsetsEveryRegister s hl).symm.trans h
  refine ⟨fun i hi => ?refused, fun ⟨t, ht⟩ halloc i hi => ?created⟩
  case refused => exact ⟨_, exec_raises_invalidHandle nofun hi, rfl, rfl⟩
  case created => exact ⟨_, _, exec_create_fresh nofun ht halloc hi, rfl, rfl, rfl⟩

/-! ### The symbols of a frame, position by position -/

@[simp] theorem length_byteBits (order : BitOrder) (b : Byte) : (byteBits order b).length = 8 := by
  cases order with
  | msbFirst | lsbFirst => rfl

/-- Bit `i` of a byte written out is the one consumed at BIT_INDEX `i` (R57). -/
theorem getElem?_byteBits (order : BitOrder) (b : Byte) (i : Fin 8) :
    (byteBits order b)[i.val]? = some (bitOf order b i) := by
  rw [← map_bitOf_finRange, List.getElem?_map, List.getElem?_eq_getElem (by simp),
    List.getElem_finRange]
  rfl

/-- The first eight bits of the stream are those of the first byte. -/
theorem bitStream_cons_of_lt (order : BitOrder) (b : Byte) (data : List Byte) {k : Nat} (h : k < 8) :
    bitStream order (b :: data) k = some (bitOf order b ⟨k, h⟩) := by
  have hk : cursorAt k = ⟨0, ⟨k, h⟩⟩ :=
    bitPosition_inj ((bitPosition_cursorAt k).trans (by simp [bitPosition]))
  rw [bitStream, hk]
  rfl

/-- After them comes the stream of the other bytes. -/
theorem bitStream_cons_add (order : BitOrder) (b : Byte) (data : List Byte) (k : Nat) :
    bitStream order (b :: data) (8 + k) = bitStream order data k := by
  have hk : cursorAt (8 + k) = ⟨(cursorAt k).byteIndex + 1, (cursorAt k).bitIndex⟩ :=
    bitPosition_inj ((bitPosition_cursorAt _).trans (by simp only [bitPosition, cursorAt]; omega))
  rw [bitStream, hk]
  rfl

/-- The bits of DATA written out byte by byte are its stream (R131). -/
theorem getElem?_flatMap_byteBits (order : BitOrder) (data : List Byte) (k : Nat) :
    (data.flatMap (byteBits order))[k]? = bitStream order data k := by
  induction data generalizing k with
  | nil => rfl
  | cons b data ih =>
    rw [List.flatMap_cons]
    rcases Nat.lt_or_ge k 8 with hk | hk
    · rw [List.getElem?_append_left (by simpa using hk), bitStream_cons_of_lt order b data hk]
      exact getElem?_byteBits order b ⟨k, hk⟩
    · obtain ⟨j, rfl⟩ := Nat.exists_eq_add_of_le hk
      rw [List.getElem?_append_right (by simp), length_byteBits, Nat.add_sub_cancel_left, ih,
        bitStream_cons_add]

theorem length_flatMap_byteBits (order : BitOrder) (data : List Byte) :
    (data.flatMap (byteBits order)).length = 8 * data.length := by
  simp [List.length_flatMap, Nat.mul_comm]

@[simp] theorem length_frameSymbols (v : Held) (data : List Byte) :
    (frameSymbols v data).length = 8 * data.length + 1 := by
  rw [frameSymbols, List.length_append, List.length_map, length_flatMap_byteBits]
  rfl

/-- The frame has the symbol of each stream bit at the bit's position (R131, R174). -/
theorem getElem?_frameSymbols (v : Held) {data : List Byte} {k : Nat} (h : k < 8 * data.length) :
    (frameSymbols v data)[k]? = streamSym v data k := by
  rw [frameSymbols, List.getElem?_append_left (by rwa [List.length_map, length_flatMap_byteBits]),
    List.getElem?_map, getElem?_flatMap_byteBits]
  rfl

/-- The part of a frame before its reset symbol. -/
theorem drop_frameSymbols_end (v : Held) (data : List Byte) :
    (frameSymbols v data).drop (8 * data.length) = [resetSym v.timing.resetTicks] :=
  List.drop_left' (by rw [List.length_map, length_flatMap_byteBits])

/-- DEST positions that read as a list does hold the front of that list. -/
theorem writtenSymbols_eq_take {n : Nat} {m : Memory} {l : List PulseSymbol}
    (h : ∀ j, j < n → memRead j m = l[j]?) : writtenSymbols n m = l.take n := by
  induction n with
  | zero => rfl
  | succ n ih =>
    have front := ih fun j hj => h j (Nat.lt_succ_of_lt hj)
    unfold writtenSymbols at front ⊢
    rw [List.range_succ, List.filterMap_append, front, List.take_add_one, ← h n n.lt_succ_self]
    cases hn : memRead n m with
    | none | some => simp [hn]

/-! ### The symbols owed -/

/-- The symbols the current frame still needs, in order (R167): the last `owed` of the whole frame. -/
def owedSymbols (v : Held) (data : List Byte) : List PulseSymbol :=
  (frameSymbols v data).drop (8 * data.length + 1 - owed data.length v)

theorem owed_of_data {v : Held} (len : Nat) (hp : v.phase = .data) :
    owed len v = remainingBits len v.cursor + 1 := by
  simp only [owed, hp]

theorem owed_of_reset {v : Held} (len : Nat) (hp : v.phase = .reset) : owed len v = 1 := by
  simp only [owed, hp]

/-- A frame always needs its reset symbol at least. -/
theorem owed_pos (len : Nat) (v : Held) : 1 ≤ owed len v := by
  cases hp : v.phase with
  | data => rw [owed_of_data len hp]; exact Nat.le_add_left _ _
  | reset => rw [owed_of_reset len hp]

/-- No frame needs more than one symbol for each bit and the reset symbol. -/
theorem owed_le (len : Nat) (v : Held) : owed len v ≤ 8 * len + 1 := by
  cases hp : v.phase with
  | data => rw [owed_of_data len hp, remainingBits]; omega
  | reset => rw [owed_of_reset len hp]; omega

@[simp] theorem length_owedSymbols (v : Held) (data : List Byte) :
    (owedSymbols v data).length = owed data.length v := by
  have := owed_le data.length v
  rw [owedSymbols, List.length_drop, length_frameSymbols]
  omega

/-- What a frame still needs after `n` more symbols, whatever the new cursor. -/
theorem owedSymbols_with_cursor {v : Held} {data : List Byte} {p : Phase} {c : Cursor} {n : Nat}
    (hn : n < owed data.length v)
    (howed : owed data.length { v with phase := p, cursor := c } = owed data.length v - n) :
    owedSymbols { v with phase := p, cursor := c } data = (owedSymbols v data).drop n := by
  have := owed_le data.length v
  rw [owedSymbols, owedSymbols, List.drop_drop, howed]
  exact congrArg (fun k => (frameSymbols v data).drop k) (by omega)

/-- A fresh block needs a whole frame. -/
theorem Fresh.owed {v : Held} (h : Fresh v) (len : Nat) : Machine.owed len v = 8 * len + 1 := by
  rw [owed_of_data len h.1, h.remainingBits]

theorem Fresh.owedSymbols {v : Held} (h : Fresh v) (data : List Byte) :
    Machine.owedSymbols v data = frameSymbols v data := by
  rw [Machine.owedSymbols, h.owed, Nat.sub_self, List.drop_zero]

/-- In phase RESET the frame needs its reset symbol. -/
theorem owedSymbols_of_reset {v : Held} (data : List Byte) (hp : v.phase = .reset) :
    owedSymbols v data = [resetSym v.timing.resetTicks] := by
  rw [owedSymbols, owed_of_reset _ hp, Nat.add_sub_cancel, drop_frameSymbols_end]

/-- In phase DATA the frame needs the symbols from the cursor on (R131). -/
theorem owedSymbols_of_data {v : Held} {data : List Byte} (hp : v.phase = .data)
    (hc : cursorInRange v.cursor data.length = true) :
    owedSymbols v data = (frameSymbols v data).drop (bitPosition v.cursor) := by
  have hrem := remainingBits_add_bitPosition hc
  rw [owedSymbols, owed_of_data _ hp]
  exact congrArg (fun k => (frameSymbols v data).drop k) (by omega)

theorem getElem?_owedSymbols {v : Held} {data : List Byte} {j : Nat} (hp : v.phase = .data)
    (hc : cursorInRange v.cursor data.length = true) (hj : j < remainingBits data.length v.cursor) :
    (owedSymbols v data)[j]? = streamSym v data (bitPosition v.cursor + j) := by
  have hrem := remainingBits_add_bitPosition hc
  rw [owedSymbols_of_data hp hc, List.getElem?_drop, getElem?_frameSymbols v (by omega)]

theorem getElem?_owedSymbols_last {v : Held} {data : List Byte} (hp : v.phase = .data)
    (hc : cursorInRange v.cursor data.length = true) :
    (owedSymbols v data)[remainingBits data.length v.cursor]? =
      some (resetSym v.timing.resetTicks) := by
  have hrem := remainingBits_add_bitPosition hc
  rw [owedSymbols_of_data hp hc, List.getElem?_drop, Nat.add_comm, hrem, ← Nat.add_zero (8 * _),
    ← List.getElem?_drop, drop_frameSymbols_end, List.getElem?_cons_zero]

/-! ### ENCODE in closed form (R168) -/

/-- What an OK ENCODE leaves of a CREATED block: the values `v'` in the registers, the response, and
the symbols written. -/
structure EncodeExit (s u : State) (v' : Held) (r : Response) (out : List PulseSymbol) : Prop where
  regs : u.regs = heldRegisters v'
  response : u.response = some r
  written : writtenSymbols r.written u.dest = out
  config : u.config = s.config
  port : u.port = s.port
  violations : u.violations = s.violations

/-- With less capacity than symbols owed, ENCODE writes the next `CAP` of them and leaves the others
owed, in range of the same DATA. -/
theorem exec_encode_bufferFull {s : State} {v : Held} {data : List Byte} {cap : Nat}
    (hv : s.regs = heldRegisters v) (hin : encodeInRange data.length v)
    (hlt : cap < owed data.length v) (dest : Memory) :
    ∃ p c u, exec (.encode data cap dest) s = .next u ∧
      EncodeExit s u { v with phase := p, cursor := c } (bufferFullResponse cap)
        ((owedSymbols v data).take cap) ∧
      encodeInRange data.length { v with phase := p, cursor := c } ∧
      owed data.length { v with phase := p, cursor := c } = owed data.length v - cap := by
  cases hp : v.phase with
  | data =>
    have hc := hin hp
    have hrem := remainingBits_add_bitPosition hc
    rw [owed_of_data _ hp] at hlt ⊢
    have written : ∀ {m}, (∀ j, memRead j m =
        if j < cap then streamSym v data (bitPosition v.cursor + j) else memRead j dest) →
        writtenSymbols cap m = (owedSymbols v data).take cap := fun hmem =>
      writtenSymbols_eq_take fun j hj => by
        rw [hmem, if_pos hj, getElem?_owedSymbols hp hc (by omega)]
    rcases Nat.lt_or_eq_of_le (Nat.le_of_lt_succ hlt) with hlt | heq
    · obtain ⟨m, hexec, hmem⟩ := encodeStopsWhenCapacityRunsOut s v data cap dest hv hp hc hlt
      have hc' : cursorInRange (cursorAt (bitPosition v.cursor + cap)) data.length = true := by
        rw [cursorInRange_iff_bitPosition, bitPosition_cursorAt]; omega
      have hrem' := remainingBits_of_bitPosition hc hc' (bitPosition_cursorAt _)
      refine ⟨v.phase, _, _, hexec, ⟨rfl, rfl, written hmem, rfl, rfl, rfl⟩, fun _ => hc', ?_⟩
      rw [owed_of_data, hrem']
      · omega
      · exact hp
    · obtain ⟨m, hexec, hmem⟩ := encodeStopsAtTheBoundary s v data cap dest hv hp hc heq
      refine ⟨.reset, _, _, hexec, ⟨rfl, rfl, written hmem, rfl, rfl, rfl⟩, nofun, ?_⟩
      rw [owed_of_reset _ rfl]
      omega
  | reset =>
    have hzero : cap = 0 := by rw [owed_of_reset _ hp] at hlt; omega
    subst hzero
    exact ⟨v.phase, v.cursor, _, exec_encode_reset_full hv hp data rfl dest,
      ⟨hv, rfl, rfl, rfl, rfl, rfl⟩, hin, rfl⟩

/-- With capacity for all symbols owed, ENCODE writes them and ends the frame. -/
theorem exec_encode_complete {s : State} {v : Held} {data : List Byte} {cap : Nat}
    (hv : s.regs = heldRegisters v) (hin : encodeInRange data.length v)
    (hle : owed data.length v ≤ cap) (dest : Memory) :
    ∃ u, exec (.encode data cap dest) s = .next u ∧
      EncodeExit s u { v with phase := .data, cursor := startCursor }
        (completeResponse (owed data.length v)) (owedSymbols v data) := by
  obtain ⟨fromData, -⟩ := encodeCompletesTheFrame s v data cap dest hv
  cases hp : v.phase with
  | data =>
    have hc := hin hp
    rw [owed_of_data _ hp] at hle ⊢
    obtain ⟨m, hexec, hmem⟩ := fromData hp hc hle
    have read : ∀ j, j < remainingBits data.length v.cursor + 1 →
        memRead j m = (owedSymbols v data)[j]? := fun j hj => by
      rw [hmem]
      rcases Nat.lt_or_eq_of_le (Nat.le_of_lt_succ hj) with hlt | rfl
      · rw [if_pos hlt, getElem?_owedSymbols hp hc hlt]
      · rw [if_neg (Nat.lt_irrefl _), if_pos rfl, getElem?_owedSymbols_last hp hc]
        rfl
    have all := List.take_of_length_le (l := owedSymbols v data)
      (by rw [length_owedSymbols, owed_of_data _ hp])
    exact ⟨_, hexec, rfl, rfl, (writtenSymbols_eq_take read).trans all, rfl, rfl, rfl⟩
  | reset =>
    rw [owed_of_reset _ hp] at hle ⊢
    rw [owedSymbols_of_reset data hp]
    exact ⟨_, exec_encode_reset_complete hv hp data hle dest, rfl, rfl,
      writtenSymbols_memWrite_end 0 _ _, rfl, rfl, rfl⟩

/-- Settles O36: the capacity is less than the symbols owed, and they are fewer by it, or it is not, and
the frame ends. -/
theorem encodeClosedForm : Obligations.EncodeClosedForm := by
  intro s v data cap dest hv hin
  rcases Nat.lt_or_ge cap (owed data.length v) with hlt | hle
  · obtain ⟨p, c, u, hexec, exit, hin', howed⟩ := exec_encode_bufferFull hv hin hlt dest
    exact ⟨u, _, hexec, exit.response, rfl, (Nat.min_eq_left hlt.le).symm,
      iff_of_false nofun hlt.not_ge, iff_of_true rfl hlt, fun _ => ⟨_, exit.regs, hin', howed⟩, nofun⟩
  · obtain ⟨u, hexec, exit⟩ := exec_encode_complete hv hin hle dest
    exact ⟨u, _, hexec, exit.response, rfl, (Nat.min_eq_right hle).symm, iff_of_true rfl hle,
      iff_of_false nofun hle.not_gt, nofun, fun _ => exit.regs⟩

/-! ### Sequences of commands -/

/-- Both forms of CREATE are CREATE over some constants (R107, R108). -/
theorem exec_of_isCreate {i : Instr} (hi : isCreate i) (s : State) :
    ∃ order res k, exec i s = createWith order res k s := by
  rcases hi with ⟨order, res, times, rfl⟩ | ⟨order, res, rfl⟩
  · exact ⟨order, res, times, rfl⟩
  · exact ⟨order, res, romConstants s, rfl⟩

/-- A CREATE that answers OK leaves a fresh block. -/
theorem exec_create_ok {i : Instr} {s u : State} (hi : isCreate i) (h : exec i s = .next u)
    (hr : u.response = some okResponse) : ∃ v, u.regs = heldRegisters v ∧ Fresh v := by
  obtain ⟨order, res, k, hexec⟩ := exec_of_isCreate hi s
  have notRaised : ∀ e, e ≠ .ok → raise e s ≠ .next u := fun e he hraise => by
    obtain ⟨-, -, -, -, -, hresp⟩ := raise_regs hraise
    exact he (congrArg Response.status (Option.some.inj (hresp.symm.trans hr)))
  rcases createWith_next (hexec.symm.trans h) with
    ⟨-, h⟩ | ⟨-, ⟨e, he, h⟩ | ⟨_, -, -, h⟩ | ⟨t, -, -, rfl⟩⟩
  · exact absurd h (notRaised _ (by decide))
  · exact absurd h (notRaised e (by rcases deriveTiming_error he with rfl | rfl <;> decide))
  · exact absurd h (notRaised _ (by decide))
  · exact ⟨_, createdRegisters_eq_held order t, rfl, rfl⟩

/-- A sequence of commands without DISPOSE changes the cursor of a CREATED block at most. -/
theorem execAll_held {commands : List Instr} {s u : State} {v : Held}
    (hv : s.regs = heldRegisters v) (hno : .dispose ∉ commands)
    (h : execAll commands s = .next u) :
    ∃ p c, u.regs = heldRegisters { v with phase := p, cursor := c } := by
  induction commands generalizing s v with
  | nil => cases h; exact ⟨v.phase, v.cursor, hv⟩
  | cons i rest ih =>
    obtain ⟨hi, hrest⟩ := not_or.mp (mt List.mem_cons.mpr hno)
    rw [execAll] at h
    cases hexec : exec i s with
    | next t =>
      rw [hexec] at h
      rcases exec_held hv hexec with ⟨p, c, ht⟩ | ⟨hdispose, -⟩
      · exact ih (v := { v with phase := p, cursor := c }) ht hrest h
      · exact absurd hdispose.symm hi
    | fault _ | refused _ => rw [hexec] at h; cases h

/-- Settles O51: the commands change the cursor at most, and RESET brings it back to where CREATE had put
it. -/
theorem resetEqualsAFreshCreate : Obligations.ResetEqualsAFreshCreate := by
  intro s s1 s2 i commands hi h hr hno hall
  obtain ⟨v, hv, hfresh⟩ := exec_create_ok hi h hr
  obtain ⟨p, c, hv'⟩ := execAll_held hv hno hall
  refine ⟨_, if_pos (by rw [hv']; rfl), rfl, ?_⟩
  calc writeCursor .data startCursor s2.regs
      = heldRegisters { v with phase := .data, cursor := startCursor } := by
        rw [hv', writeCursor_held]
    _ = s1.regs := by rw [hfresh.with_start, hv]

/-! ### The frame of a sequence of ENCODE calls -/

theorem frameOutput_cons_bufferFull {k : Call} {s t : State} {n : Nat} (rest : List Call)
    (h : exec (.encode k.data k.cap k.dest) s = .next t)
    (hr : t.response = some (bufferFullResponse n)) :
    frameOutput (k :: rest) s =
      (frameOutput rest t).map fun o => (writtenSymbols n t.dest ++ o.1, o.2) := by
  simp [frameOutput, h, hr, bufferFullResponse]

theorem frameOutput_cons_complete {k : Call} {s t : State} {n : Nat} (rest : List Call)
    (h : exec (.encode k.data k.cap k.dest) s = .next t)
    (hr : t.response = some (completeResponse n)) :
    frameOutput (k :: rest) s = some (writtenSymbols n t.dest, t) := by
  simp [frameOutput, h, hr, completeResponse]

/-- Calls of one DATA with capacity for all symbols owed put these out, in order, and leave a fresh
block and the record as it was. -/
theorem frameOutput_of_owed_le {s : State} {v : Held} {data : List Byte} {calls : List Call}
    (hv : s.regs = heldRegisters v) (hin : encodeInRange data.length v) (hsame : SameData data calls)
    (hle : owed data.length v ≤ (calls.map (·.cap)).sum) :
    ∃ u, frameOutput calls s = some (owedSymbols v data, u) ∧
      u.regs = heldRegisters { v with phase := .data, cursor := startCursor } ∧
      u.violations = s.violations := by
  induction calls generalizing s v with
  | nil => exact absurd hle (Nat.not_le.mpr (owed_pos _ v))
  | cons k rest ih =>
    obtain ⟨rfl, hrest⟩ := List.forall_mem_cons.mp hsame
    rw [List.map_cons, List.sum_cons] at hle
    rcases Nat.lt_or_ge k.cap (owed k.data.length v) with hlt | hcap
    · obtain ⟨p, c, t, hexec, exit, hin', howed⟩ := exec_encode_bufferFull hv hin hlt k.dest
      obtain ⟨u, hout, hu, hviol⟩ := ih exit.regs hin' hrest (by rw [howed]; omega)
      refine ⟨u, ?_, hu, hviol.trans exit.violations⟩
      have front : writtenSymbols k.cap t.dest = (owedSymbols v k.data).take k.cap := exit.written
      rw [frameOutput_cons_bufferFull rest hexec exit.response, hout, Option.map_some, front,
        owedSymbols_with_cursor hlt howed, List.take_append_drop]
    · obtain ⟨u, hexec, exit⟩ := exec_encode_complete hv hin hcap k.dest
      have all : writtenSymbols (owed k.data.length v) u.dest = owedSymbols v k.data := exit.written
      exact ⟨u, by rw [frameOutput_cons_complete rest hexec exit.response, all], exit.regs,
        exit.violations⟩

/-- Calls of one DATA with less capacity than symbols owed complete no frame. -/
theorem frameOutput_of_lt_owed {s : State} {v : Held} {data : List Byte} {calls : List Call}
    (hv : s.regs = heldRegisters v) (hin : encodeInRange data.length v) (hsame : SameData data calls)
    (hlt : (calls.map (·.cap)).sum < owed data.length v) : frameOutput calls s = none := by
  induction calls generalizing s v with
  | nil => rfl
  | cons k rest ih =>
    obtain ⟨rfl, hrest⟩ := List.forall_mem_cons.mp hsame
    rw [List.map_cons, List.sum_cons] at hlt
    obtain ⟨p, c, t, hexec, exit, hin', howed⟩ :=
      exec_encode_bufferFull hv hin (Nat.lt_of_add_right_lt hlt) k.dest
    rw [frameOutput_cons_bufferFull rest hexec exit.response,
      ih exit.regs hin' hrest (by rw [howed]; omega), Option.map_none]

/-- Calls of one DATA complete a frame exactly if their capacities suffice for the symbols owed, and
what they put out is those symbols. -/
theorem frameOutput_isSome_iff {s : State} {v : Held} {data : List Byte} {calls : List Call}
    (hv : s.regs = heldRegisters v) (hin : encodeInRange data.length v)
    (hsame : SameData data calls) :
    (frameOutput calls s).isSome = true ↔ owed data.length v ≤ (calls.map (·.cap)).sum := by
  constructor
  · intro hsome
    by_contra hlt
    rw [frameOutput_of_lt_owed hv hin hsame (Nat.not_le.mp hlt)] at hsome
    cases hsome
  · intro hle
    obtain ⟨u, hout, -⟩ := frameOutput_of_owed_le hv hin hsame hle
    rw [hout]; rfl

/-- Settles O48: a fresh block owes the whole frame, and its calls have the capacity for it. -/
theorem frameIsBitComplete : Obligations.FrameIsBitComplete := by
  intro s v data calls hv hfresh hsame _ henough
  obtain ⟨u, hout, hu, hviol⟩ := frameOutput_of_owed_le hv (fun _ => hfresh.inRange _) hsame
    (by rw [hfresh.owed]; exact henough)
  rw [hfresh.owedSymbols] at hout
  rw [hfresh.with_start] at hu
  exact ⟨u, hout, hu, hviol.trans⟩

/-- Settles O49: calls of capacity `k` complete the frame exactly if `8L + 1` is at most `k` times their
number. -/
theorem frameCompletesInCeilingCalls : Obligations.FrameCompletesInCeilingCalls := by
  intro s v data k calls hv hfresh hsame hk hcaps
  have total : (calls.map (·.cap)).sum = k * calls.length := by
    rw [List.map_congr_left hcaps, List.map_const', List.sum_replicate, smul_eq_mul, Nat.mul_comm]
  rw [frameOutput_isSome_iff hv (fun _ => hfresh.inRange _) hsame, hfresh.owed, total,
    Nat.div_le_iff_le_mul_add_pred hk, Nat.add_le_add_iff_right]

/-! ### Decoding a frame (R174, R247) -/

/-- A byte is determined by its bits in either order. -/
theorem byteBits_injective (order : BitOrder) : Function.Injective (byteBits order) := by
  intro b b' h
  have bits : ∀ i, bitOf order b i = bitOf order b' i := fun i =>
    Option.some.inj (by rw [← getElem?_byteBits, h, getElem?_byteBits])
  refine BitVec.eq_of_getLsbD_eq fun i hi => ?_
  cases order with
  | msbFirst =>
    have := bits ⟨7 - i, by omega⟩
    simpa only [bitOf, Nat.sub_sub_self (Nat.le_of_lt_succ hi)] using this
  | lsbFirst => exact bits ⟨i, hi⟩

/-- DATA is determined by its bits: they come in groups of eight. -/
theorem flatMap_byteBits_injective (order : BitOrder) :
    Function.Injective fun data : List Byte => data.flatMap (byteBits order) := by
  intro data data' h
  induction data generalizing data' with
  | nil =>
    have := congrArg List.length h
    simp only [length_flatMap_byteBits, List.length_nil] at this
    exact (List.eq_nil_of_length_eq_zero (by omega)).symm
  | cons b data ih =>
    cases data' with
    | nil =>
      have := congrArg List.length h
      simp only [length_flatMap_byteBits, List.length_nil, List.length_cons] at this
      omega
    | cons b' data' =>
      obtain ⟨hb, hdata⟩ := List.append_inj h (by simp)
      rw [byteBits_injective order hb, ih hdata]

/-- Under `Decodable` a frame determines its DATA. -/
theorem frameSymbols_injective {v : Held} (hd : Decodable v) :
    Function.Injective (frameSymbols v) := by
  intro data data' h
  have hsym : Function.Injective (dataSym v.timing.bit0 v.timing.bit1) := Bool.injective_iff.mpr hd
  exact flatMap_byteBits_injective v.order
    (List.map_injective_iff.mpr hsym (List.append_cancel_right h))

/-- What calls of one DATA put out from a fresh block is the frame of that DATA. -/
theorem frameOutput_eq_frameSymbols {s u : State} {v : Held} {data : List Byte} {calls : List Call}
    {out : List PulseSymbol} (hv : s.regs = heldRegisters v) (hfresh : Fresh v)
    (hsame : SameData data calls) (h : frameOutput calls s = some (out, u)) :
    out = frameSymbols v data := by
  have hin : encodeInRange data.length v := fun _ => hfresh.inRange _
  have hle := (frameOutput_isSome_iff hv hin hsame).mp (by rw [h]; rfl)
  obtain ⟨w, hout, -⟩ := frameOutput_of_owed_le hv hin hsame hle
  rw [hfresh.owedSymbols] at hout
  exact congrArg Prod.fst (Option.some.inj (h.symm.trans hout))

/-- Settles O50: both sequences put out the frame of their DATA, and a frame determines it. -/
theorem framesDecodeBackToTheirData : Obligations.FramesDecodeBackToTheirData := by
  intro s t v data data' calls calls' out u w hs ht hfresh hd hsame hsame' h h'
  exact frameSymbols_injective hd
    ((frameOutput_eq_frameSymbols hs hfresh hsame h).symm.trans
      (frameOutput_eq_frameSymbols ht hfresh hsame' h'))

/-! ### The frame on the port, among raised commands (R244) -/

/-- A transaction that a CREATED block raises (R82, R108), or an ENCODE of the given DATA that the
port can carry. -/
def RaisedOrEncodeOf (w : Nat) (data : List Byte) (t : Transaction) : Prop :=
  (∃ e, decode t.command = .error e) ∨
  (∃ order res times, decode t.command = .ok (.create order res times)) ∨
  (∃ order res, decode t.command = .ok (.createRom order res)) ∨
  (∃ cap dest, decode t.command = .ok (.encode data cap dest) ∧
    (Instr.encode data cap dest).wf w = true)

/-- A CREATED block raises CREATE, whatever its operands (R108). -/
theorem exec_create_raises {i : Instr} {s : State} (hi : isCreate i)
    (hl : s.regs.lifecycle = .created) : exec i s = raise .invalidHandle s := by
  obtain ⟨order, res, k, hexec⟩ := exec_of_isCreate hi s
  rw [hexec, createWith, if_pos hl]

/-- The step of a raised command: the registers, the parameters and the frames stay. -/
structure RaisedStep (rest : List Transaction) (s u : State) : Prop where
  step : step s = .next u
  regs : u.regs = s.regs
  config : u.config = s.config
  port : u.port = rest
  log : ∀ g : FrameLog, g.step s u = g

/-- A step that takes an illegal word is raised (R82). -/
theorem step_illegal_raised {s : State} {t : Transaction} {rest : List Transaction} {e : Illegal}
    (hp : s.port = t :: rest) (hd : decode t.command = .error e) : ∃ u, RaisedStep rest s u :=
  ⟨_, (step_cons hp).trans (runCommand_illegal hd), rfl, rfl, rfl,
    fun g => FrameLog.step_illegal _ g hp hd⟩

/-- A step that takes a CREATE is raised on a CREATED block. -/
theorem step_create_raised {s : State} {t : Transaction} {rest : List Transaction} {i : Instr}
    (hp : s.port = t :: rest) (hd : decode t.command = .ok i) (hi : isCreate i)
    (hl : s.regs.lifecycle = .created) : ∃ u, RaisedStep rest s u := by
  have hwf : i.wf s.config.w = true := by
    rcases hi with ⟨_, _, _, rfl⟩ | ⟨_, _, rfl⟩ <;> rfl
  refine ⟨_, (step_cons hp).trans ((runCommand_runs (s := accept t rest s) hd hwf).trans
    (exec_create_raises hi hl)), rfl, rfl, rfl, fun g => ?_⟩
  exact (FrameLog.step_decoded g hp hd rfl).trans (FrameLog.command_raised g (by decide))

/-- The step of such a transaction is raised and brings no capacity, or it is that of the ENCODE. -/
theorem RaisedOrEncodeOf.step_cases {s : State} {data : List Byte} {t : Transaction}
    {rest : List Transaction} (h : RaisedOrEncodeOf s.config.w data t) (hp : s.port = t :: rest)
    (hl : s.regs.lifecycle = .created) :
    (broughtCap t = 0 ∧ ∃ u, RaisedStep rest s u) ∨
    (∃ cap dest, broughtCap t = cap ∧ decode t.command = .ok (.encode data cap dest) ∧
      step s = exec (.encode data cap dest) (accept t rest s)) := by
  rcases h with ⟨e, hd⟩ | ⟨order, res, times, hd⟩ | ⟨order, res, hd⟩ | ⟨cap, dest, hd, hwf⟩
  · exact .inl ⟨by rw [broughtCap, hd], step_illegal_raised hp hd⟩
  · exact .inl ⟨by rw [broughtCap, hd], step_create_raised hp hd (.inl ⟨_, _, _, rfl⟩) hl⟩
  · exact .inl ⟨by rw [broughtCap, hd], step_create_raised hp hd (.inr ⟨_, _, rfl⟩) hl⟩
  · exact .inr ⟨cap, dest, by rw [broughtCap, hd], hd,
      (step_cons hp).trans (runCommand_runs (s := accept t rest s) hd hwf)⟩

/-- On the port of a CREATED block, ENCODE commands of one DATA with capacity for all symbols owed,
and any commands raised between them, end the open frame with exactly those symbols. -/
theorem runFrames_of_owed_le {s : State} {v : Held} {data : List Byte} {port : List Transaction}
    (g : FrameLog) (hp : s.port = port) (hv : s.regs = heldRegisters v)
    (hin : encodeInRange data.length v) (hport : ∀ t ∈ port, RaisedOrEncodeOf s.config.w data t)
    (hle : owed data.length v ≤ (port.map broughtCap).sum) :
    ∃ n u, n ≤ port.length ∧
      runFrames n s g =
        some (u, ⟨g.frames ++ [⟨g.current.getD [] ++ owedSymbols v data, true⟩], none⟩) ∧
      u.regs = heldRegisters { v with phase := .data, cursor := startCursor } := by
  induction port generalizing s v g with
  | nil => exact absurd hle (Nat.not_le.mpr (owed_pos _ v))
  | cons t rest ih =>
    obtain ⟨ht, hrest⟩ := List.forall_mem_cons.mp hport
    rw [List.map_cons, List.sum_cons] at hle
    have hl : s.regs.lifecycle = .created := by rw [hv, heldRegisters_lifecycle]
    rcases ht.step_cases hp hl with ⟨hzero, u, raised⟩ | ⟨cap, dest, rfl, hd, hstep⟩
    · obtain ⟨n, w, hn, hrun, hw⟩ := ih g raised.port (raised.regs.trans hv) hin
        (by rwa [raised.config]) (by omega)
      exact ⟨n + 1, w, Nat.succ_le_succ hn,
        by rw [runFrames_succ n g raised.step, raised.log, hrun], hw⟩
    · rcases Nat.lt_or_ge (broughtCap t) (owed data.length v) with hlt | hcap
      · obtain ⟨p, c, u, hexec, exit, hin', howed⟩ :=
          exec_encode_bufferFull (s := accept t rest s) hv hin hlt dest
        obtain ⟨n, w, hn, hrun, hw⟩ := ih (g.step s u) exit.port exit.regs hin'
          (by rwa [exit.config]) (by rw [howed]; omega)
        refine ⟨n + 1, w, Nat.succ_le_succ hn, ?_, hw⟩
        have hlog : g.step s u =
            ⟨g.frames, some (g.current.getD [] ++ (owedSymbols v data).take (broughtCap t))⟩ := by
          rw [FrameLog.step_decoded g hp hd exit.response, ← exit.written]; rfl
        rw [runFrames_succ n g (hstep.trans hexec), hrun, hlog, Option.getD_some, List.append_assoc,
          owedSymbols_with_cursor hlt howed, List.take_append_drop]
      · obtain ⟨u, hexec, exit⟩ :=
          exec_encode_complete (s := accept t rest s) hv hin hcap dest
        refine ⟨1, u, Nat.le_add_left 1 _, ?_, exit.regs⟩
        rw [runFrames_succ 0 g (hstep.trans hexec), runFrames_zero,
          FrameLog.step_decoded g hp hd exit.response, ← exit.written]
        rfl

/-- Settles O54: the run starts with no frame open and a whole frame owed. -/
theorem frameIsBitCompleteAmongRaisedCommands :
    Obligations.FrameIsBitCompleteAmongRaisedCommands := by
  intro s v data hv hfresh hport hle
  obtain ⟨n, u, hn, hrun, hu⟩ := runFrames_of_owed_le FrameLog.empty rfl hv
    (fun _ => hfresh.inRange _) hport (by rwa [hfresh.owed])
  rw [hfresh.owedSymbols] at hrun
  rw [hfresh.with_start] at hu
  exact ⟨n, u, hn, hrun, hu⟩

end Sys2Proof.Machine
end


section
/-! PROOF. Exceptions (spec/60_exceptions.md): which commands enter the violation record (R209), the
errors of CREATE in the order of R210, and the handle check of the other commands (R205). -/

namespace Sys2Proof.Machine

/-! ### The violation record -/

/-- Raising records a contract violation once, and records nothing of another error (R209). -/
theorem raise_record {e : Status} {s u : State} (h : raise e s = .next u) :
    (e ∈ [Status.illegalCommand, .invalidHandle, .cursorOutOfRange] ∧
      u.violations = s.violations ++ [e]) ∨
    (e ∈ [Status.ok, .configErrorResZero, .configErrorTickOverflow, .allocFailure] ∧
      u.violations = s.violations) := by
  rw [raise_next.mp h]
  cases e with
  | illegalCommand | invalidHandle | cursorOutOfRange => exact .inl ⟨by decide, rfl⟩
  | ok | configErrorResZero | configErrorTickOverflow | allocFailure =>
    exact .inr ⟨by decide, rfl⟩

/-- Settles O15: a raised command records its status if it is a violation, and every other effect of a
command answers OK and leaves the record. -/
theorem violationRecordIsExact : Obligations.ViolationRecordIsExact := by
  intro i s u h
  rcases exec_next h with ⟨e, -, h⟩ | ⟨-, -, _, _, _, _, -, rfl⟩ |
    ⟨_, _, _, r, _, _, -, -, rfl, -, answer⟩ | ⟨-, -, rfl⟩ | ⟨-, -, rfl⟩
  case inl =>
    obtain ⟨-, -, -, -, -, hresp⟩ := raise_regs h
    exact ⟨_, hresp, raise_record (s := { s with dest := broughtDest i s }) h⟩
  case inr.inr.inl =>
    refine ⟨r, rfl, .inr ⟨?_, rfl⟩⟩
    rw [answer.ok]
    exact List.mem_cons_self
  case inr.inl | inr.inr.inr.inl | inr.inr.inr.inr =>
    exact ⟨okResponse, rfl, .inr ⟨List.mem_cons_self, rfl⟩⟩

/-! ### The errors of CREATE -/

/-- Both forms of CREATE are CREATE over their constants: the operands, or the ROM (R74, R107). -/
theorem exec_create_over {s : State} {i : Instr} {order : BitOrder} {res : Word}
    {k : TimingConstants}
    (hi : i = .create order res k ∨ (i = .createRom order res ∧ k = s.config.rom)) :
    exec i s = createWith order res k s := by
  rcases hi with rfl | ⟨rfl, rfl⟩
  case inl | inr => rfl

/-- A count that does not fit fails the derivation, if the resolution has passed its test (R106). -/
theorem deriveTiming_overflow {k : TimingConstants} {res : Word} (hres : res ≠ 0)
    (hfit : ¬ countsFit (tickCounts k res) = true) :
    deriveTiming k res = .error .configErrorTickOverflow := by
  rw [deriveTiming, if_neg hres, if_neg hfit]

/-- CREATE of a block that is not CREATED raises the error of its derivation (R108). -/
theorem createWith_underivable {order : BitOrder} {res : Word} {k : TimingConstants} {s : State}
    {e : Status} (hl : s.regs.lifecycle ≠ .created) (hd : deriveTiming k res = .error e) :
    createWith order res k s = raise e s := by
  rw [createWith, if_neg hl, hd]

/-- With a derived timing, a false draw is the one error left to CREATE (R109). -/
theorem createWith_unallocated {order : BitOrder} {res : Word} {k : TimingConstants} {s : State}
    {t : TimingConfig} (hl : s.regs.lifecycle ≠ .created) (hd : deriveTiming k res = .ok t)
    (ha : s.allocOk = false) : createWith order res k s = raise .allocFailure s := by
  rw [createWith, if_neg hl, hd]
  exact if_neg (Bool.eq_false_iff.mp ha)

/-- Settles O19: both forms are CREATE over some constants, whose tests come in the order of R210:
the life stage, the resolution, the counts, the draw. -/
theorem createErrorsComeInOrder : Obligations.CreateErrorsComeInOrder := by
  intro s i order res k hi
  rw [exec_create_over hi]
  refine ⟨?created, ?zeroResolution, ?overflow, ?unallocated⟩
  case created => exact fun hl => if_pos hl
  case zeroResolution =>
    rintro hl rfl
    exact createWith_underivable hl (zeroResolutionFailsBeforeAnyTick k)
  case overflow =>
    intro hl hres hover
    have hfit : ¬ countsFit (tickCounts k res) = true := by
      rw [countsFit_tickCounts_iff]
      omega
    exact createWith_underivable hl (deriveTiming_overflow hres hfit)
  case unallocated =>
    intro hl hres h0h h0l h1h h1l hrst ha
    have hfit := (countsFit_tickCounts_iff k res).mpr ⟨h0h, h0l, h1h, h1l, hrst⟩
    exact createWith_unallocated hl (deriveTiming_ok.mpr ⟨hres, hfit, rfl⟩) ha

/-! ### The handle check of ENCODE, RESET and DISPOSE -/

/-- Settles O41: the three commands raise INVALID_HANDLE, and of them only ENCODE brings a DEST. -/
theorem notCreatedRaisesInvalidHandle : Obligations.NotCreatedRaisesInvalidHandle := by
  intro s data cap dest hl
  have refused : ∀ i ∈ [Instr.encode data cap dest, .reset, .dispose],
      exec i s = raise .invalidHandle { s with dest := broughtDest i s } :=
    fun _ hi => exec_raises_invalidHandle hl hi
  exact ⟨refused (.encode data cap dest) (by simp), refused .reset (by simp),
    refused .dispose (by simp)⟩

end Sys2Proof.Machine
end


section
/-! PROOF. Power-on, waiting, and the frames of a run (spec/70_reset_and_hazards.md R230, R231, R244):
what bounds a frame, what adds to it, and that every frame keeps its shape. -/

namespace Sys2Proof.Machine

/-! ### Power-on and waiting -/

/-- Settles O11: each field of the power-on state, read off its definition. -/
theorem powerOnState : Obligations.PowerOnState := by
  unfold Obligations.PowerOnState
  decide

/-- Settles O12: at power-on the block is UNCREATED with its registers unset, and DEST and the record
are empty. -/
theorem powerOnMeetsInvariant : Obligations.PowerOnMeetsInvariant :=
  ⟨.inr ⟨nofun, rfl⟩, reset_dest_wf, nofun⟩

/-- Settles O8: a step looks at the port first. -/
theorem stepWaitsWithoutACommand : Obligations.StepWaitsWithoutACommand := by
  intro s hp
  rw [step, nextCommand, hp]

/-! ### What a command does to the frames -/

/-- Neither form of CREATE is an ENCODE. -/
theorem isCreate.ne_encode {i : Instr} (hi : isCreate i) :
    ∀ data cap dest, i ≠ .encode data cap dest := by
  rcases hi with ⟨_, _, _, rfl⟩ | ⟨_, _, rfl⟩
  case inl | inr => exact nofun

/-- Every OK command that is no ENCODE bounds a frame (R244). -/
theorem FrameLog.command_bound {i : Instr} {r : Response} (g : FrameLog) (dest : Memory)
    (hi : ∀ data cap dest, i ≠ .encode data cap dest) (hr : r.status = .ok) :
    g.command i r dest = g.cut := by
  cases i with
  | encode data cap dest => exact absurd rfl (hi data cap dest)
  | create | createRom | reset | dispose => exact if_pos hr

/-- An OK ENCODE adds its symbols to the open frame (R244). -/
theorem FrameLog.command_encode {r : Response} (g : FrameLog) (data : List Byte) (cap : Nat)
    (dest m : Memory) (hr : r.status = .ok) :
    g.command (.encode data cap dest) r m = g.encoded r m :=
  if_pos hr

/-- What a command that answers a next state does to the frames: nothing, if it was raised; it bounds
the open one; or it adds the symbols of an OK ENCODE. -/
theorem exec_frames {i : Instr} {s u : State} (h : exec i s = .next u) (g : FrameLog) :
    ∃ r, u.response = some r ∧
      (g.command i r u.dest = g ∨ g.command i r u.dest = g.cut ∨
        (∃ cap dest, EncodeAnswer cap dest r u.dest ∧ g.command i r u.dest = g.encoded r u.dest)) := by
  rcases exec_next h with ⟨e, he, h⟩ | ⟨hi, -, _, _, _, _, -, rfl⟩ |
    ⟨data, cap, dest, r, _, m, rfl, -, rfl, -, answer⟩ | ⟨rfl, -, rfl⟩ | ⟨rfl, -, rfl⟩
  case inl =>
    obtain ⟨-, -, -, -, -, hresp⟩ := raise_regs h
    exact ⟨_, hresp, .inl (g.command_raised he)⟩
  case inr.inl =>
    exact ⟨okResponse, rfl, .inr (.inl (g.command_bound _ hi.ne_encode rfl))⟩
  case inr.inr.inl =>
    exact ⟨r, rfl, .inr (.inr ⟨cap, dest, answer, g.command_encode _ _ _ _ answer.ok⟩)⟩
  case inr.inr.inr.inl | inr.inr.inr.inr =>
    exact ⟨okResponse, rfl, .inr (.inl (g.command_bound _ nofun rfl))⟩

/-! ### Frames keep their shape (R244) -/

theorem FrameLog.empty_wellFormed : FrameLog.empty.WellFormed := ⟨nofun, nofun⟩

/-- Adding a well-formed frame to the finished ones, with none left open, keeps a log well formed. -/
theorem FrameLog.WellFormed.close {g : FrameLog} {f : Frame} (hg : g.WellFormed)
    (hf : f.WellFormed) : FrameLog.WellFormed ⟨g.frames ++ [f], none⟩ := by
  obtain ⟨hframes, -⟩ := hg
  refine ⟨fun x hx => ?_, nofun⟩
  rcases List.mem_append.mp hx with hx | hx
  · exact hframes x hx
  · exact List.mem_singleton.mp hx ▸ hf

/-- A bound makes of the open frame one that was cut short: data symbols alone. -/
theorem FrameLog.WellFormed.cut {g : FrameLog} (hg : g.WellFormed) : g.cut.WellFormed := by
  have ⟨_, hopen⟩ := hg
  unfold FrameLog.cut
  split
  · exact hg
  · next out hout => exact hg.close ⟨out, hopen out hout, .inr ⟨rfl, rfl⟩⟩

/-- Before an ENCODE the frame under way holds data symbols only, or nothing if none is open. -/
theorem FrameLog.WellFormed.current_data {g : FrameLog} (hg : g.WellFormed) :
    ∀ x ∈ g.current.getD [], isDataSymbol x := by
  obtain ⟨-, hopen⟩ := hg
  cases hc : g.current with
  | none => exact nofun
  | some out => exact hopen out hc

/-- An OK ENCODE adds data symbols to the frame under way, and a reset symbol exactly if it ends it. -/
theorem FrameLog.WellFormed.encoded {g : FrameLog} {cap : Nat} {dest m : Memory} {r : Response}
    (hg : g.WellFormed) (answer : EncodeAnswer cap dest r m) : (g.encoded r m).WellFormed := by
  obtain ⟨body, hbody, kinds⟩ := answer.kinds
  have hdata : ∀ x ∈ g.current.getD [] ++ body, isDataSymbol x :=
    List.forall_mem_append.mpr ⟨hg.current_data, hbody⟩
  unfold FrameLog.encoded
  rcases kinds with ⟨hcomplete, ticks, hout⟩ | ⟨hopen, hout⟩
  · rw [if_pos hcomplete, hout, ← List.append_assoc]
    exact hg.close ⟨_, hdata, .inl ⟨rfl, ticks, rfl⟩⟩
  · rw [if_neg (Bool.eq_false_iff.mp hopen), hout]
    obtain ⟨hframes, -⟩ := hg
    exact ⟨hframes, fun out h => Option.some.inj h ▸ hdata⟩

/-- Settles O52: a wait and an illegal word leave the log, and a command leaves it, cuts the open frame
or adds an ENCODE's symbols; each keeps every frame's shape. -/
theorem stepKeepsFramesWellFormed : Obligations.StepKeepsFramesWellFormed := by
  refine ⟨FrameLog.empty_wellFormed, fun s u g hg h => ?_⟩
  rcases step_next h with ⟨hp, -⟩ | ⟨t, rest, hp, ⟨e, hd, -⟩ | ⟨i, hd, -, h⟩⟩
  · rwa [FrameLog.step_wait u g hp]
  · rwa [FrameLog.step_illegal u g hp hd]
  · obtain ⟨r, hr, hlog⟩ := exec_frames h g
    rw [FrameLog.step_decoded g hp hd hr]
    rcases hlog with hlog | hlog | ⟨cap, dest, answer, hlog⟩ <;> rw [hlog]
    · exact hg
    · exact hg.cut
    · exact hg.encoded answer

/-! ### The bounds of a frame (R171, R244) -/

/-- The step of an OK command that is no ENCODE closes the open frame as cut short. -/
theorem FrameLog.step_bound {s u : State} {t : Transaction} {rest : List Transaction} {i : Instr}
    {r : Response} (g : FrameLog) (hp : s.port = t :: rest) (hd : decode t.command = .ok i)
    (hi : ∀ data cap dest, i ≠ .encode data cap dest) (hu : u.response = some r)
    (hr : r.status = .ok) :
    (g.step s u).current = none ∧
      (g.step s u).frames = g.frames ++ (g.current.map fun out => (⟨out, false⟩ : Frame)).toList := by
  rw [FrameLog.step_decoded g hp hd hu, g.command_bound u.dest hi hr]
  exact ⟨g.cut_current, g.cut_frames⟩

/-- On a CREATED block a RESET or DISPOSE is no ENCODE, always expressible, and OK (R170, R172). -/
theorem exec_reset_or_dispose {i : Instr} {s : State} (hi : i = .reset ∨ i = .dispose)
    (hl : s.regs.lifecycle = .created) :
    (∀ data cap dest, i ≠ .encode data cap dest) ∧ (∀ w, i.wf w = true) ∧
      ∃ u, exec i s = .next u ∧ u.response = some okResponse := by
  rcases hi with rfl | rfl
  · exact ⟨nofun, fun _ => rfl, _, resetReturnsTheCursorToItsStart s hl, rfl⟩
  · exact ⟨nofun, fun _ => rfl, _, disposeUnsetsEveryRegister s hl, rfl⟩

/-- A step that raises an error leaves the frames and the registers (R14, R244). -/
theorem step_raised {s u : State} {t : Transaction} {rest : List Transaction} {r : Response}
    (g : FrameLog) (hp : s.port = t :: rest) (h : step s = .next u) (hr : u.response = some r)
    (hne : r.status ≠ .ok) : g.step s u = g ∧ u.regs = s.regs := by
  rcases step_next h with ⟨hnil, -⟩ | ⟨t', rest', hp', ⟨e, hd, h⟩ | ⟨i, hd, -, h⟩⟩
  · exact absurd (hp.symm.trans hnil) (List.cons_ne_nil t rest)
  · obtain ⟨hregs, -⟩ := raise_regs h
    exact ⟨FrameLog.step_illegal u g hp' hd, hregs⟩
  · obtain ⟨hregs, -⟩ := raisedCommandsChangeNothing i _ u r h hr hne
    exact ⟨(FrameLog.step_decoded g hp' hd hr).trans (g.command_raised hne), hregs⟩

/-- A raised ENCODE adds nothing to the frame of a sequence of calls (R174, R244). -/
theorem frameOutput_cons_raised {k : Call} {s u : State} {r : Response} (rest : List Call)
    (h : exec (.encode k.data k.cap k.dest) s = .next u) (hr : u.response = some r)
    (hne : r.status ≠ .ok) : frameOutput (k :: rest) s = frameOutput rest u := by
  simp [frameOutput, h, hr, hne]

/-- Settles O53: RESET, DISPOSE and an OK CREATE are OK commands that are no ENCODE, and a raised command
changes neither the frames nor the registers. -/
theorem framesAreBoundedByTheCommandsThatRun :
    Obligations.FramesAreBoundedByTheCommandsThatRun := by
  refine ⟨?resetOrDispose, ?create, ?raised, ?raisedEncode⟩
  case resetOrDispose =>
    intro s t rest i g hp hd hi hl
    obtain ⟨hne, hwf, u, hexec, hu⟩ := exec_reset_or_dispose (s := accept t rest s) hi hl
    have hstep : step s = .next u :=
      (step_cons hp).trans ((runCommand_runs (s := accept t rest s) hd (hwf _)).trans hexec)
    exact ⟨u, hstep, g.step_bound hp hd hne hu rfl⟩
  case create =>
    intro s u t rest i g hp hd hi _ hu
    exact g.step_bound hp hd (isCreate.ne_encode hi) hu rfl
  case raised => exact fun s u t rest r g hp h hr hne => step_raised g hp h hr hne
  case raisedEncode =>
    intro s u k rest r h hr hne
    obtain ⟨hregs, -⟩ := raisedCommandsChangeNothing _ s u r h hr hne
    exact ⟨frameOutput_cons_raised rest h hr hne, hregs⟩

end Sys2Proof.Machine
end
